-- ==== Sys2Proof/Word.lean ====
section
/-! DEFINITION. The Word, the byte and the register index of the UM core (spec/00_scope.md R4, R5; spec/10_state.md R20, R21). -/

namespace Sys2Proof

/-- A Word: an unsigned integer of 32 bits; registers, memory cells, instructions, handles, offsets and
segment lengths are all Words (R5). -/
abbrev Word := BitVec 32

/-- One byte of the input port, the output port or the program image (R41, R42, R92). -/
abbrev Byte := BitVec 8

/-- A general register's number: a 3-bit field, always 0 to 7 (R21, R85). -/
abbrev RegIdx := Fin 8

end Sys2Proof
end

