-- ==== Sys2Proof/Config.lean ====
section
/-! DEFINITION. What an implementation of the UM core fixes: the capacity of its segment store (spec/10_state.md R40,
spec/00_scope.md R4, spec/92_eei_decisions.md D9) and the fixed bounds of R4. -/

namespace Sys2Proof

/-- Which predicate `MapRefused(state, n)` a machine has (R40: an argument of the model).
`handlesOnly` is the spec's default: a Map is refused only when no handle that fits a Word is left.
`implementation k` is any other machine: its predicate is `Config.mapRefused k`, of which nothing is known.
DESIGN CHOICE (log 3). -/
inductive Capacity where
  | handlesOnly
  | implementation (k : Nat)
deriving DecidableEq, Repr

/-- What implementation `k` answers when a state of the type `σ` asks for a segment of `n` Words.
It has no body: no proof can see a value of it, so a theorem holds for every hardware size (D9).
DESIGN CHOICE (log 3); unsafe nowhere, since nothing is fixed. -/
opaque Config.mapRefused {σ : Type} (k : Nat) (s : σ) (n : Word) : Bool

/-- `MAX_SEG_LEN`, the greatest length of a segment and of a program image, in Words (R4, D2, D13). -/
abbrev Config.maxSegLen : Nat := 2 ^ 32 - 1

end Sys2Proof
end

