-- ==== Sys2Proof/Syntax.lean ====
section
/-! DEFINITION. The instructions of the UM core, one constructor per row of spec/opcode_table.json (spec/30_encoding.md R87),
and the source lines an assembler accepts (R93). -/

namespace Sys2Proof

/-- A decoded instruction: the operation and the operand fields it reads (R85, R87). A field an operation does not
read, and bits 27:9, are ignored by the core (R89, R90), so they are no part of the instruction. -/
inductive Instr where
  /-- CMOV rA,rB,rC (opcode 0, R120). -/
  | cmov (a b c : RegIdx)
  /-- SLOAD rA,rB,rC (opcode 1, R125). -/
  | sload (a b c : RegIdx)
  /-- SSTORE rA,rB,rC (opcode 2, R126). -/
  | sstore (a b c : RegIdx)
  /-- ADD rA,rB,rC (opcode 3, R135). -/
  | add (a b c : RegIdx)
  /-- MUL rA,rB,rC (opcode 4, R136). -/
  | mul (a b c : RegIdx)
  /-- DIV rA,rB,rC (opcode 5, R137). -/
  | div (a b c : RegIdx)
  /-- NAND rA,rB,rC (opcode 6, R138). -/
  | nand (a b c : RegIdx)
  /-- HALT (opcode 7, R150). -/
  | halt
  /-- MAP rB,rC (opcode 8, R155). -/
  | map (b c : RegIdx)
  /-- UNMAP rC (opcode 9, R158). -/
  | unmap (c : RegIdx)
  /-- OUT rC (opcode 10, R170). -/
  | out (c : RegIdx)
  /-- IN rC (opcode 11, R172). -/
  | inp (c : RegIdx)
  /-- LOADP rB,rC (opcode 12, R180). -/
  | loadp (b c : RegIdx)
  /-- LV rA,imm (opcode 13, R190); the literal is the 25-bit field itself (R86). -/
  | lv (a : RegIdx) (imm : BitVec 25)
  /-- Opcode 14: illegal (R88). `low` is bits 27:0, because the fault records the whole Word (R201; log 10). -/
  | illegal14 (low : BitVec 28)
  /-- Opcode 15: illegal (R88). `low` is bits 27:0, because the fault records the whole Word (R201; log 10). -/
  | illegal15 (low : BitVec 28)
deriving DecidableEq, Repr

/-- One line of assembly with its operands as plain numbers, as R93 encodes it: a three-register line, an LV line, or
a `.word` line. -/
inductive Line where
  | three (op a b c : Nat)
  | lv (a imm : Nat)
  | word (v : Nat)
deriving DecidableEq, Repr

end Sys2Proof
end

