-- ==== Sys2Proof/WellFormed.lean ====
section
/-! DEFINITION. What is well formed: source lines (spec/30_encoding.md R93) and program images (spec/70_reset_and_hazards.md
R231, R232). An `Instr` needs no check: a register number is a 3-bit field and the literal a 25-bit field, "so no
validation is needed there" (R85), and their types say so. -/

namespace Sys2Proof

/-- A register operand of a source line is one of r0 to r7 (R93). -/
def registerNumberOk (r : Nat) : Bool := decide (r < 8)

/-- A three-register line has an opcode of the three-register format, an assembled operation: 0 to 12 (R83, R87, R93). -/
def threeRegisterOpcodeOk (op : Nat) : Bool := decide (op < 13)

/-- "An LV whose literal is 2^25 or more cannot be encoded and the assembler refuses it" (R93). -/
def literalOk (imm : Nat) : Bool := decide (imm < 2 ^ 25)

/-- A `.word` line places a Word (R93, R5). -/
def wordValueOk (v : Nat) : Bool := decide (v < 2 ^ 32)

/-- "The canonical encoding of a line has zeros in ... every field the line does not write" (R93): HALT writes no field;
UNMAP, OUT and IN write C; MAP and LOADP write B and C. -/
def unwrittenFieldsZero (op a b c : Nat) : Bool :=
  (if op = 7 ∨ op = 8 ∨ op = 9 ∨ op = 10 ∨ op = 11 ∨ op = 12 then decide (a = 0) else true) &&
  (if op = 7 ∨ op = 9 ∨ op = 10 ∨ op = 11 then decide (b = 0) else true) &&
  (if op = 7 then decide (c = 0) else true)

/-- The lines the assembler of R93 accepts. -/
def Line.wf : Line → Bool
  | .three op a b c =>
    threeRegisterOpcodeOk op && registerNumberOk a && registerNumberOk b && registerNumberOk c &&
      unwrittenFieldsZero op a b c
  | .lv a imm => registerNumberOk a && literalOk imm
  | .word v => wordValueOk v

/-- A PROGRAM holds at most `MAX_SEG_LEN` Words (R232, D13). -/
def programFits (program : List Word) : Bool := decide (program.length ≤ Config.maxSegLen)

/-- A program image is a whole number of Words (R231, R232). -/
def imageWholeWords (bytes : List Byte) : Bool := decide (bytes.length % 4 = 0)

/-- A program image holds at most `MAX_SEG_LEN` Words (R232). -/
def imageFits (bytes : List Byte) : Bool := decide (bytes.length / 4 ≤ Config.maxSegLen)

/-- The images this spec speaks of; on any other it makes no statement (R232). -/
def imageWf (bytes : List Byte) : Bool := imageWholeWords bytes && imageFits bytes

end Sys2Proof
end

