-- ==== Sys2Proof/Decode.lean ====
section
/-! DEFINITION. The InstructionDecoder (spec/30_encoding.md R80 to R91), the encoder written from the same formats (R93),
and the byte order of the program image (R92; spec/20_memory.md R55; spec/70_reset_and_hazards.md R231). -/

namespace Sys2Proof

/-- R81: the `n`-bit field at offset `k` of `w`, `(w >> k) mod 2^n`. -/
def bitField (w : Word) (k n : Nat) : Nat := (w.toNat >>> k) % 2 ^ n

/-- R82: the opcode, `w[31:28]`. -/
def opcodeOf (w : Word) : Nat := bitField w 28 4

/-- A 3-bit register field at offset `k` (R83, R84): always 0 to 7. -/
def regField (w : Word) (k : Nat) : RegIdx := ⟨bitField w k 3, Nat.mod_lt _ (by decide)⟩

/-- R83: operand A of the three-register format, `w[8:6]`. -/
def fieldA (w : Word) : RegIdx := regField w 6
/-- R83: operand B of the three-register format, `w[5:3]`. -/
def fieldB (w : Word) : RegIdx := regField w 3
/-- R83: operand C of the three-register format, `w[2:0]`. -/
def fieldC (w : Word) : RegIdx := regField w 0
/-- R84: operand A of the immediate-load format, `w[27:25]`. -/
def fieldLvA (w : Word) : RegIdx := regField w 25
/-- R84: the literal of the immediate-load format, `w[24:0]`. -/
def fieldImm (w : Word) : BitVec 25 := BitVec.ofNat 25 (bitField w 0 25)
/-- R88: bits 27:0 of an illegal Word. -/
def fieldLow (w : Word) : BitVec 28 := BitVec.ofNat 28 (bitField w 0 28)

/-- R85: `Decode(w)`, total: "Decoding itself never fails". Opcodes 14 and 15 decode to the two illegal rows; the
dispatcher rejects them (R88, R103). -/
def decode (w : Word) : Instr :=
  match opcodeOf w with
  | 0 => .cmov (fieldA w) (fieldB w) (fieldC w)
  | 1 => .sload (fieldA w) (fieldB w) (fieldC w)
  | 2 => .sstore (fieldA w) (fieldB w) (fieldC w)
  | 3 => .add (fieldA w) (fieldB w) (fieldC w)
  | 4 => .mul (fieldA w) (fieldB w) (fieldC w)
  | 5 => .div (fieldA w) (fieldB w) (fieldC w)
  | 6 => .nand (fieldA w) (fieldB w) (fieldC w)
  | 7 => .halt
  | 8 => .map (fieldB w) (fieldC w)
  | 9 => .unmap (fieldC w)
  | 10 => .out (fieldC w)
  | 11 => .inp (fieldC w)
  | 12 => .loadp (fieldB w) (fieldC w)
  | 13 => .lv (fieldLvA w) (fieldImm w)
  | 14 => .illegal14 (fieldLow w)
  | _ => .illegal15 (fieldLow w)

/-- R87: the opcode of an instruction's row. -/
def Instr.opcode : Instr → Nat
  | .cmov _ _ _ => 0
  | .sload _ _ _ => 1
  | .sstore _ _ _ => 2
  | .add _ _ _ => 3
  | .mul _ _ _ => 4
  | .div _ _ _ => 5
  | .nand _ _ _ => 6
  | .halt => 7
  | .map _ _ => 8
  | .unmap _ => 9
  | .out _ => 10
  | .inp _ => 11
  | .loadp _ _ => 12
  | .lv _ _ => 13
  | .illegal14 _ => 14
  | .illegal15 _ => 15

/-- R93: `Encode3(op, A, B, C) = op·2^28 + A·2^6 + B·2^3 + C`. -/
def encode3 (op a b c : Nat) : Nat := op * 2 ^ 28 + a * 2 ^ 6 + b * 2 ^ 3 + c

/-- R93: `EncodeLV(A, imm) = 13·2^28 + A·2^25 + imm`. -/
def encodeLv (a imm : Nat) : Nat := 13 * 2 ^ 28 + a * 2 ^ 25 + imm

/-- R93: the canonical Word of an instruction, zeros in bits 27:9 and in every field it does not read (D14). An illegal
row has no canonical Word: it is the Word it was read from (R88). -/
def encode (i : Instr) : Word :=
  match i with
  | .cmov a b c => BitVec.ofNat 32 (encode3 0 a b c)
  | .sload a b c => BitVec.ofNat 32 (encode3 1 a b c)
  | .sstore a b c => BitVec.ofNat 32 (encode3 2 a b c)
  | .add a b c => BitVec.ofNat 32 (encode3 3 a b c)
  | .mul a b c => BitVec.ofNat 32 (encode3 4 a b c)
  | .div a b c => BitVec.ofNat 32 (encode3 5 a b c)
  | .nand a b c => BitVec.ofNat 32 (encode3 6 a b c)
  | .halt => BitVec.ofNat 32 (encode3 7 0 0 0)
  | .map b c => BitVec.ofNat 32 (encode3 8 0 b c)
  | .unmap c => BitVec.ofNat 32 (encode3 9 0 0 c)
  | .out c => BitVec.ofNat 32 (encode3 10 0 0 c)
  | .inp c => BitVec.ofNat 32 (encode3 11 0 0 c)
  | .loadp b c => BitVec.ofNat 32 (encode3 12 0 b c)
  | .lv a imm => BitVec.ofNat 32 (encodeLv a imm.toNat)
  | .illegal14 low => BitVec.ofNat 32 (14 * 2 ^ 28 + low.toNat)
  | .illegal15 low => BitVec.ofNat 32 (15 * 2 ^ 28 + low.toNat)

/-- R93: the Word of a source line, none where the assembler refuses the line. -/
def assembleLine (l : Line) : Option Word :=
  if l.wf then
    match l with
    | .three op a b c => some (BitVec.ofNat 32 (encode3 op a b c))
    | .lv a imm => some (BitVec.ofNat 32 (encodeLv a imm))
    | .word v => some (BitVec.ofNat 32 v)
  else none

/-! ### Bytes of the program image -/

/-- R55: four consecutive bytes `b0 b1 b2 b3` make the Word `b0·2^24 + b1·2^16 + b2·2^8 + b3`. -/
def wordOfBytes (b0 b1 b2 b3 : Byte) : Word :=
  BitVec.ofNat 32 (b0.toNat * 2 ^ 24 + b1.toNat * 2 ^ 16 + b2.toNat * 2 ^ 8 + b3.toNat)

/-- R92: a Word's four bytes, most significant first. -/
def bytesOfWord (w : Word) : List Byte :=
  [BitVec.ofNat 8 (bitField w 24 8), BitVec.ofNat 8 (bitField w 16 8),
   BitVec.ofNat 8 (bitField w 8 8), BitVec.ofNat 8 (bitField w 0 8)]

/-- Why bytes hold no instruction: fewer than the four of a Word are there (R80, R232). -/
inductive DecodeError where
  | fewerThanFourBytes (present : Nat)
deriving DecidableEq, Repr

/-- The first instruction of a stretch of a program image and the bytes after it (R80, R92). -/
def decodeBytes (bytes : List Byte) : Except DecodeError (Instr × List Byte) :=
  match bytes with
  | b0 :: b1 :: b2 :: b3 :: rest => .ok (decode (wordOfBytes b0 b1 b2 b3), rest)
  | short => .error (.fewerThanFourBytes short.length)

/-- R231: the Words of an image, Word `k` from bytes `4k` to `4k+3`; none for a ragged image (R232). -/
def imageWords : List Byte → Option (List Word)
  | [] => some []
  | b0 :: b1 :: b2 :: b3 :: rest =>
    match imageWords rest with
    | some ws => some (wordOfBytes b0 b1 b2 b3 :: ws)
    | none => none
  | _ => none

/-- The Word whose low `nbits` bits are those of `w`, the rest zero: an instruction as spec/opcode_table.json numbers its
bits, bit 0 least significant (R6). Used by the host's checks only (log 11). -/
def tableWord (nbits w : Nat) : Word := BitVec.ofNat 32 (w % 2 ^ nbits)

/-- The host's check of the decoder: the Word is laid out as the program image stores it (R92) and read back by
`decodeBytes`; none where a row would be longer than one Word (R80; log 11). -/
def decodeTableWord (nbits w : Nat) : Option Instr :=
  if nbits ≤ 32 then
    match decodeBytes (bytesOfWord (tableWord nbits w)) with
    | .ok (i, _) => some i
    | .error _ => none
  else none

end Sys2Proof
end

