-- ==== Sys2Proof/Machine/State.lean ====
section
/-! DEFINITION. The state of the UM core as plain data, and its reset value (spec/10_state.md R20 to R45). INVENTORY.md
lists every piece with its rule. -/

namespace Sys2Proof.Machine

/-- R27: the run state. `faulted` is entered by every fatal condition. -/
inductive RunState where
  | running
  | halted
  | faulted
deriving DecidableEq, Repr

/-- R208: the seven fatal conditions. -/
inductive Cause where
  | invalidOpcode
  | divisionByZero
  | unmappedSegmentAccess
  | outOfBoundsOffset
  | invalidOutputValue
  | invalidProgramCounter
  | resourceExhausted
deriving DecidableEq, Repr

/-- `raise F(info)` of R7: the condition and the Word it records. -/
structure Raise where
  cause : Cause
  info : Word
deriving DecidableEq, Repr

/-- R30, R32: a live segment: its length in Words, and the Words that are not zero by rising offset.
An offset below the length that is not listed holds 0 (R33, R66; log 6). -/
structure Segment where
  len : Word
  cells : List (Nat × Word)
deriving DecidableEq, Repr

/-- R30: the live segments by rising handle. A handle that is not listed is not live (log 6). -/
abbrev Memory := List (Nat × Segment)

/-- R41: what the environment presents when the core takes an item from the input port. -/
inductive InputItem where
  | byte (b : Byte)
  | endOfInput
  /-- Neither a byte nor `end` is presented yet: the Input instruction holds. -/
  | notReady
deriving DecidableEq, Repr

/-- R101: what the fetch finds. -/
inductive Fetched where
  | word (w : Word)
  /-- `pc ≥ len(0)`: InvalidProgramCounter. -/
  | outside
  /-- Segment 0 is not live, which no Running state of a run shows (R31; log 7). -/
  | noProgram
deriving DecidableEq, Repr

/-- The machine's state. -/
structure State where
  /-- R20: `x[0]` to `x[7]`. -/
  regs : Vector Word 8
  /-- R23: the program counter, an index into segment 0. -/
  pc : Word
  /-- R27. -/
  run : RunState
  /-- R28: 0, or the code of R208. -/
  fcause : BitVec 3
  /-- R28: 0, or the Word R208 lists. -/
  finfo : Word
  /-- R30: the segment table and its contents. -/
  mem : Memory
  /-- R34: the pool of released handles, the most recently released first. -/
  free : List Word
  /-- R34: `next`, the least handle never handed out, 1 to 2^32. -/
  nextHandle : Nat
  /-- R41: the bytes presented at the input port and not yet taken, first item first. -/
  input : List Byte
  /-- R41: whether `end` follows those bytes; while it does not, an Input that finds no byte holds (log 4). -/
  inputEnd : Bool
  /-- R42: the output stream, oldest byte first. -/
  out : List Byte
  /-- The model's own field: which capacity predicate the machine has (R40; log 3). No step changes it. -/
  capacity : Capacity
deriving DecidableEq, Repr

/-- Why a step can stop the model. Every fatal condition of the spec is a next state (its entry, R210), so this is the
only one. -/
inductive Fault where
  /-- Raised by the fetch (R101) and by Load program (R180) in a state where segment 0 is not live. R31 says that no
  Running state is such a state, and the invariant of Safety.lean keeps it so. Safe: no run reaches it (log 7). -/
  | programSegmentMissing
deriving DecidableEq, Repr

/-- Why an instruction can have no meaning. -/
inductive Refusal where
  /-- Raised by an arm of `exec` whose instruction has no meaning yet; no arm does so now. Safe. -/
  | notModelled (mnemonic : String)
deriving DecidableEq, Repr

/-- R44, R230: the state right after reset, for the empty PROGRAM (log 1), the empty INPUT followed by `end` (log 2) and
the spec's default capacity (log 3). `launch` in Ops.lean is the reset for any other. -/
def State.reset : State where
  regs := Vector.replicate 8 0#32
  pc := 0#32
  run := .running
  fcause := 0#3
  finfo := 0#32
  mem := [(0, { len := 0#32, cells := [] })]
  free := []
  nextHandle := 1
  input := []
  inputEnd := true
  out := []
  capacity := .handlesOnly

end Sys2Proof.Machine
end

