-- ==== Sys2Proof/Machine/Flags.lean ====
section
/-! DEFINITION. The UM core has no flags: no instruction sets or reads one (spec/10_state.md R29; spec/43_arithmetic_logic.md
R141). The only condition of the machine is Conditional move's test of a general register, and it stands here. -/

namespace Sys2Proof.Machine

/-- R120: `x[C] ≠ 0`, "taken on all 32 bits". -/
def conditionHolds (v : Word) : Bool := decide (v ≠ 0#32)

end Sys2Proof.Machine
end

