-- ==== Sys2Proof/Machine/Operands.lean ====
section
/-! DEFINITION. The operand forms of the UM core (spec/30_encoding.md R86: a general register, or the literal of LV) and
the arithmetic on Words (spec/43_arithmetic_logic.md R135 to R141): operands are taken as natural numbers, the exact
result is computed, and the low 32 bits are kept. -/

namespace Sys2Proof.Machine

/-- `x[i]` of R7. No register is hardwired (R20). -/
def State.reg (s : State) (i : RegIdx) : Word := s.regs.get i

/-- `x[i] <- v` of R7. -/
def State.setReg (s : State) (i : RegIdx) (v : Word) : State :=
  { s with regs := s.regs.set i.val v i.isLt }

/-- R86: the literal of LV, zero-extended: `zext_32(w[24:0])`. -/
def zextImm (imm : BitVec 25) : Word := BitVec.ofNat 32 imm.toNat

/-- R172: an input byte, zero-extended: `zext_32(b)`. -/
def zextByte (b : Byte) : Word := BitVec.ofNat 32 b.toNat

/-- R172: the end-of-input sentinel, all ones. -/
def allOnes : Word := BitVec.ofNat 32 (2 ^ 32 - 1)

/-- R170: `x[C][7:0]`. -/
def lowByte (v : Word) : Byte := BitVec.ofNat 8 (v.toNat % 2 ^ 8)

/-- R135, R141: `(b + c) mod 2^32`. -/
def addWords (b c : Word) : Word := BitVec.ofNat 32 ((b.toNat + c.toNat) % 2 ^ 32)

/-- R136, R141: `(b * c) mod 2^32`. -/
def mulWords (b c : Word) : Word := BitVec.ofNat 32 ((b.toNat * c.toNat) % 2 ^ 32)

/-- R137, R140: `b div c`, unsigned, the remainder dropped; used for `c ≠ 0` only. -/
def divWords (b c : Word) : Word := BitVec.ofNat 32 (b.toNat / c.toNat)

/-- R138: `~(b & c)` on all 32 bits. -/
def nandWords (b c : Word) : Word := ~~~(b &&& c)

end Sys2Proof.Machine
end

