-- ==== Sys2Proof/Machine/Ops.lean ====
section
/-! DEFINITION. The named operations over memory, the segment table, the ports and the program counter, and taking a
fault (spec/10_state.md R30 to R44; spec/20_memory.md R50 to R67; spec/40_execution_cycle.md R101 to R105;
spec/60_exceptions.md R208, R210; spec/70_reset_and_hazards.md R230 to R232). -/

namespace Sys2Proof.Machine

/-! ### Lists of key and value by rising key -/

/-- The value at a key, none where the key is not listed. -/
def assocGet {α : Type} (k : Nat) : List (Nat × α) → Option α
  | [] => none
  | (k', v) :: rest => if k = k' then some v else assocGet k rest

/-- The list with `v` at the key `k`, in its place among rising keys. -/
def assocPut {α : Type} (k : Nat) (v : α) : List (Nat × α) → List (Nat × α)
  | [] => [(k, v)]
  | (k', v') :: rest =>
    if k < k' then (k, v) :: (k', v') :: rest
    else if k = k' then (k, v) :: rest
    else (k', v') :: assocPut k v rest

/-- The list without the key `k`. -/
def assocDel {α : Type} (k : Nat) : List (Nat × α) → List (Nat × α)
  | [] => []
  | (k', v') :: rest => if k = k' then rest else (k', v') :: assocDel k rest

/-- The keys rise strictly. -/
abbrev assocRising {α : Type} (l : List (Nat × α)) : Prop := (l.map Prod.fst).Pairwise (· < ·)

/-! ### One segment -/

/-- `seg[h][o]` of a live segment: 0 where nothing is listed (R66; log 6). -/
def Segment.word (g : Segment) (o : Word) : Word := (assocGet o.toNat g.cells).getD 0#32

/-- `seg[h][o] <- v`: storing 0 unlists the offset, so that equal contents are equal lists (log 6). -/
def Segment.setWord (g : Segment) (o v : Word) : Segment :=
  { g with cells := if v = 0#32 then assocDel o.toNat g.cells else assocPut o.toNat v g.cells }

/-- R36: a fresh segment of `n` Words, every one 0. -/
def Segment.zeroed (n : Word) : Segment := { len := n, cells := [] }

/-- The Words of a list from the offset `k` on, the zero ones unlisted. -/
def cellsFrom (k : Nat) : List Word → List (Nat × Word)
  | [] => []
  | w :: ws => if w = 0#32 then cellsFrom (k + 1) ws else (k, w) :: cellsFrom (k + 1) ws

/-- R231: a segment that holds a list of Words verbatim. Its one use, `launch`, refuses a list longer than `MAX_SEG_LEN`
first, so the length never wraps. -/
def Segment.ofWords (ws : List Word) : Segment :=
  { len := BitVec.ofNat 32 ws.length, cells := cellsFrom 0 ws }

/-- The canonical form of a segment: rising offsets below the length, none of them listing 0 (log 6). -/
def Segment.wf (g : Segment) : Bool :=
  decide (assocRising g.cells) && g.cells.all (fun c => decide (c.1 < g.len.toNat) && decide (c.2 ≠ 0#32))

/-! ### The segment table as memory -/

/-- The canonical form of memory: rising handles, each a Word, each segment canonical (log 6). -/
def Memory.wf (m : Memory) : Bool :=
  decide (assocRising m) && m.all (fun e => decide (e.1 < 2 ^ 32) && e.2.wf)

/-- R30: the live segment with the handle `h`, none where `h` is not live. -/
def Memory.seg (m : Memory) (h : Word) : Option Segment := assocGet h.toNat m

/-- `live(h)` of R7, R30. -/
def Memory.live (m : Memory) (h : Word) : Bool := (Memory.seg m h).isSome

/-- `len(h)` of R7, R30, none where `h` is not live. -/
def Memory.len (m : Memory) (h : Word) : Option Word := (Memory.seg m h).map Segment.len

/-- The table with the segment `g` live under the handle `h`. -/
def Memory.setSeg (m : Memory) (h : Word) (g : Segment) : Memory := assocPut h.toNat g m

/-- The table with the handle `h` not live. -/
def Memory.drop (m : Memory) (h : Word) : Memory := assocDel h.toNat m

/-- R52, R54: the checked read, liveness before bounds. -/
def memRead (m : Memory) (h o : Word) : Except Raise Word :=
  match Memory.seg m h with
  | none => .error { cause := .unmappedSegmentAccess, info := h }
  | some g =>
    if g.len.toNat ≤ o.toNat then .error { cause := .outOfBoundsOffset, info := o }
    else .ok (g.word o)

/-- R53, R54: the checked write, liveness before bounds; one Word of one segment changes. -/
def memWrite (m : Memory) (h o v : Word) : Except Raise Memory :=
  match Memory.seg m h with
  | none => .error { cause := .unmappedSegmentAccess, info := h }
  | some g =>
    if g.len.toNat ≤ o.toNat then .error { cause := .outOfBoundsOffset, info := o }
    else .ok (Memory.setSeg m h (g.setWord o v))

/-! ### The segment-table operations -/

/-- R40: `MapRefused(state, n)`. It holds when `free` is empty and `next = 2^32`; the default capacity has that case
only, any other adds its own predicate (log 3). (A `next` above 2^32, which R34 excludes, counts as 2^32: log 8.) -/
def mapRefused (s : State) (n : Word) : Bool :=
  (s.free.isEmpty && decide (2 ^ 32 ≤ s.nextHandle)) ||
  match s.capacity with
  | .handlesOnly => false
  | .implementation k => Config.mapRefused k s n

/-- R36: the handle the next Map hands out: the top of `free`, or `next`. -/
def handleToHandOut (s : State) : Word :=
  match s.free with
  | h :: _ => h
  | [] => BitVec.ofNat 32 s.nextHandle

/-- R36: `free` or `next` after a handle is handed out. -/
def takeHandle (s : State) : State :=
  match s.free with
  | _ :: rest => { s with free := rest }
  | [] => { s with nextHandle := s.nextHandle + 1 }

/-- R36: `SegMap(n)`: the handle and the state in which it is live, zero-filled and `n` Words long. -/
def segMap (s : State) (n : Word) : Except Raise (Word × State) :=
  if mapRefused s n then .error { cause := .resourceExhausted, info := n }
  else
    .ok (handleToHandOut s,
      { takeHandle s with mem := Memory.setSeg s.mem (handleToHandOut s) (Segment.zeroed n) })

/-- R37: `SegUnmap(h)`: handle 0 and a handle that is not live fault; otherwise `h` goes on top of `free`. -/
def segUnmap (s : State) (h : Word) : Except Raise State :=
  if h = 0#32 ∨ Memory.live s.mem h = false then .error { cause := .unmappedSegmentAccess, info := h }
  else .ok { s with mem := Memory.drop s.mem h, free := h :: s.free }

/-- R38: `SegLoadProgram(h)`: segment 0 becomes a copy of the live segment `h`, which stays as it is. -/
def segLoadProgram (m : Memory) (h : Word) : Except Raise Memory :=
  match Memory.seg m h with
  | none => .error { cause := .unmappedSegmentAccess, info := h }
  | some g => .ok (Memory.setSeg m 0#32 g)

/-- R39: `SegReleaseAll()`: no handle is live; `free` and `next` keep their values. -/
def releaseAll (s : State) : State := { s with mem := [] }

/-! ### Taking a fault -/

/-- R208: the code `fcause` holds for each fatal condition. -/
def Cause.code : Cause → BitVec 3
  | .invalidOpcode => 1#3
  | .divisionByZero => 2#3
  | .unmappedSegmentAccess => 3#3
  | .outOfBoundsOffset => 4#3
  | .invalidOutputValue => 5#3
  | .invalidProgramCounter => 6#3
  | .resourceExhausted => 7#3

/-- R210: fault entry: the cause and its Word are recorded, the run state becomes Faulted, every segment is released;
all else keeps the value it had before the step. There is no return from it (R212). -/
def enterFault (r : Raise) (s : State) : State :=
  releaseAll { s with fcause := r.cause.code, finfo := r.info, run := .faulted }

/-- `raise F(info)` ends the step through the fault entry (R7, R108, R210): a next state. -/
def raise (r : Raise) (s : State) : Host.Outcome State Fault Refusal := .next (enterFault r s)

/-! ### The program counter and the end of a step -/

/-- R104: `pc <- pc + 1`. It never wraps in a run (R25; log 8). -/
def advance (s : State) : State := { s with pc := BitVec.ofNat 32 (s.pc.toNat + 1) }

/-- The end of a handler that made its checks in a shared operation: the fault entry, or the operation's state with the
program counter advanced (R103, R104, R107). -/
def finish (r : Except Raise State) (s : State) : Host.Outcome State Fault Refusal :=
  match r with
  | .ok t => .next (advance t)
  | .error e => raise e s

/-- R101: the fetch: a plain read of segment 0 at `pc`. -/
def fetch (s : State) : Fetched :=
  match Memory.seg s.mem 0#32 with
  | none => .noProgram
  | some g => if g.len.toNat ≤ s.pc.toNat then .outside else .word (g.word s.pc)

/-! ### The ports -/

/-- R41: `In()`: the first item and the state after it is taken; `end` and "not ready" take nothing. -/
def takeInput (s : State) : InputItem × State :=
  match s.input with
  | b :: rest => (.byte b, { s with input := rest })
  | [] => if s.inputEnd then (.endOfInput, s) else (.notReady, s)

/-- R42: `Out(b)`: `b` is appended to the output stream, which accepts every byte. -/
def putOutput (s : State) (b : Byte) : State := { s with out := s.out ++ [b] }

/-! ### What the host does, between steps only (R41, R43, R230, R231, R243; log 12) -/

/-- R41: the environment presents one more byte; after `end` there is none. -/
def presentByte (b : Byte) (s : State) : State :=
  if s.inputEnd then s else { s with input := s.input ++ [b] }

/-- R41: the environment presents `end`, for ever. -/
def presentEnd (s : State) : State := { s with inputEnd := true }

/-- R43: the status output: `run`, `fcause`, `finfo`. -/
def statusOutput (s : State) : RunState × BitVec 3 × Word := (s.run, s.fcause, s.finfo)

/-- R44, R230: reset with a PROGRAM, an INPUT (and whether `end` follows it) and a capacity; nothing of an earlier run
remains (D21), so it has no earlier state as an argument. None for a PROGRAM longer than a segment can be, of which the
spec makes no statement (R232; log 13). -/
def launch (program : List Word) (input : List Byte) (inputEnd : Bool) (capacity : Capacity) : Option State :=
  if programFits program then
    some { State.reset with
      mem := [(0, Segment.ofWords program)]
      input := input
      inputEnd := inputEnd
      capacity := capacity }
  else none

/-- R231, R232: the Loader's contract on an image of bytes, then reset; none for an image outside the spec (log 13). -/
def loadImage (image : List Byte) (input : List Byte) (inputEnd : Bool) (capacity : Capacity) : Option State :=
  if imageWf image then (imageWords image).bind (fun ws => launch ws input inputEnd capacity) else none

end Sys2Proof.Machine
end

