-- ==== Sys2Proof/Machine/Arithmetic.lean ====
section
/-! DEFINITION. Add, Multiply, Divide and NAND (spec/43_arithmetic_logic.md R135 to R141). -/

namespace Sys2Proof.Machine

/-- ADD, R135. -/
def execAdd (a b c : RegIdx) (s : State) : Host.Outcome State Fault Refusal :=
  .next (advance (s.setReg a (addWords (s.reg b) (s.reg c))))

/-- MUL, R136. -/
def execMul (a b c : RegIdx) (s : State) : Host.Outcome State Fault Refusal :=
  .next (advance (s.setReg a (mulWords (s.reg b) (s.reg c))))

/-- DIV, R137: a zero divisor raises DivisionByZero with the dividend. -/
def execDiv (a b c : RegIdx) (s : State) : Host.Outcome State Fault Refusal :=
  if s.reg c = 0#32 then raise { cause := .divisionByZero, info := s.reg b } s
  else .next (advance (s.setReg a (divWords (s.reg b) (s.reg c))))

/-- NAND, R138. -/
def execNand (a b c : RegIdx) (s : State) : Host.Outcome State Fault Refusal :=
  .next (advance (s.setReg a (nandWords (s.reg b) (s.reg c))))

end Sys2Proof.Machine
end

