-- ==== Sys2Proof/Machine/Control.lean ====
section
/-! DEFINITION. Halt, Load program, and the two illegal opcodes (spec/44_halt.md R150; spec/47_load_program.md R180, R181;
spec/30_encoding.md R88; spec/60_exceptions.md R201). -/

namespace Sys2Proof.Machine

/-- HALT, R150 with R104 and R105: the run state, then the program counter, then the release of all segments. -/
def execHalt (s : State) : Host.Outcome State Fault Refusal :=
  .next (releaseAll (advance { s with run := .halted }))

/-- R180: the state in which segment 0 has been replaced (for `h ≠ 0`) and `pc` is the target; every check came before. -/
def jumpInto (h t : Word) (s : State) : Host.Outcome State Fault Refusal :=
  if h = 0#32 then .next { s with pc := t }
  else
    match segLoadProgram s.mem h with
    | .error e => raise e s
    | .ok m => .next { s with mem := m, pc := t }

/-- LOADP, R180, R181: liveness of `x[B]` (when it is not 0), then the target against the length segment 0 is about to
have (`len(x[B])`, which is `len(0)` when `x[B] = 0`), then the copy; nothing is added to `pc` (R104). -/
def execLoadp (b c : RegIdx) (s : State) : Host.Outcome State Fault Refusal :=
  match Memory.len s.mem (s.reg b) with
  | none =>
    if s.reg b = 0#32 then .fault .programSegmentMissing
    else raise { cause := .unmappedSegmentAccess, info := s.reg b } s
  | some n =>
    if n.toNat ≤ (s.reg c).toNat then raise { cause := .invalidProgramCounter, info := s.reg c } s
    else jumpInto (s.reg b) (s.reg c) s

/-- Opcode 14, R88, R201: InvalidOpcode, recording the whole Word; nothing executes. -/
def execIllegal14 (low : BitVec 28) (s : State) : Host.Outcome State Fault Refusal :=
  raise { cause := .invalidOpcode, info := encode (.illegal14 low) } s

/-- Opcode 15, R88, R201: InvalidOpcode, recording the whole Word; nothing executes. -/
def execIllegal15 (low : BitVec 28) (s : State) : Host.Outcome State Fault Refusal :=
  raise { cause := .invalidOpcode, info := encode (.illegal15 low) } s

end Sys2Proof.Machine
end

