-- ==== Sys2Proof/Machine/InOut.lean ====
section
/-! DEFINITION. Output and Input (spec/46_output_input.md R170, R172). -/

namespace Sys2Proof.Machine

/-- OUT, R170: a value of 256 or more raises InvalidOutputValue; it is not truncated. -/
def execOut (c : RegIdx) (s : State) : Host.Outcome State Fault Refusal :=
  if 256 ≤ (s.reg c).toNat then raise { cause := .invalidOutputValue, info := s.reg c } s
  else .next (advance (putOutput s (lowByte (s.reg c))))

/-- IN, R172: a byte zero-extended, all ones at the end; while nothing is presented the step does not complete and the
state is the state before it (log 4). -/
def execInp (c : RegIdx) (s : State) : Host.Outcome State Fault Refusal :=
  match takeInput s with
  | (.byte b, t) => .next (advance (t.setReg c (zextByte b)))
  | (.endOfInput, t) => .next (advance (t.setReg c allOnes))
  | (.notReady, _) => .next s

end Sys2Proof.Machine
end

