-- ==== Sys2Proof/Machine/LoadStore.lean ====
section
/-! DEFINITION. Segmented load and Segmented store (spec/42_segmented_load_store.md R124 to R126). -/

namespace Sys2Proof.Machine

/-- SLOAD, R125: `x[A] <- MemRead((x[B], x[C]), 1)`. -/
def execSload (a b c : RegIdx) (s : State) : Host.Outcome State Fault Refusal :=
  finish ((memRead s.mem (s.reg b) (s.reg c)).map (fun v => s.setReg a v)) s

/-- SSTORE, R126: `MemWrite((x[A], x[B]), 1, x[C])`; here A is the handle. -/
def execSstore (a b c : RegIdx) (s : State) : Host.Outcome State Fault Refusal :=
  finish ((memWrite s.mem (s.reg a) (s.reg b) (s.reg c)).map (fun m => { s with mem := m })) s

end Sys2Proof.Machine
end

