-- ==== Sys2Proof/Machine/Move.lean ====
section
/-! DEFINITION. Conditional move and Load value (spec/41_conditional_move.md R120; spec/48_load_value.md R190). -/

namespace Sys2Proof.Machine

/-- CMOV, R120: the condition is tested before `x[A]` is written. -/
def execCmov (a b c : RegIdx) (s : State) : Host.Outcome State Fault Refusal :=
  .next (advance (if conditionHolds (s.reg c) then s.setReg a (s.reg b) else s))

/-- LV, R190: the whole register takes the zero-extended literal. -/
def execLv (a : RegIdx) (imm : BitVec 25) (s : State) : Host.Outcome State Fault Refusal :=
  .next (advance (s.setReg a (zextImm imm)))

end Sys2Proof.Machine
end

