-- ==== Sys2Proof/Machine/Segments.lean ====
section
/-! DEFINITION. Map segment and Unmap segment (spec/45_map_unmap.md R155 to R158). -/

namespace Sys2Proof.Machine

/-- MAP, R155: the length is read before `x[B]` takes the handle. -/
def execMap (b c : RegIdx) (s : State) : Host.Outcome State Fault Refusal :=
  finish ((segMap s (s.reg c)).map (fun r => r.2.setReg b r.1)) s

/-- UNMAP, R158. -/
def execUnmap (c : RegIdx) (s : State) : Host.Outcome State Fault Refusal :=
  finish (segUnmap s (s.reg c)) s

end Sys2Proof.Machine
end

