-- ==== Sys2Proof/Machine/Step.lean ====
section
/-! DEFINITION. The step (spec/40_execution_cycle.md R100 to R108), and where a host that runs one Word places it. -/

namespace Sys2Proof.Machine

/-- R108: fetch, decode, dispatch while Running. In Halted and Faulted "there is no step: nothing changes until reset"
(R100, D20), so the state answers itself (log 5). -/
def step (s : State) : Host.Outcome State Fault Refusal :=
  match s.run with
  | .running =>
    match fetch s with
    | .word w => exec (decode w) s
    | .outside => raise { cause := .invalidProgramCounter, info := s.pc } s
    | .noProgram => .fault .programSegmentMissing
  | .halted => .next s
  | .faulted => .next s

/-- The Loader's place for one Word (R231; log 11): segment 0 holds it at `pc` and is long enough for the fetch; the run
state is Running. From State.reset nothing else changes. -/
def State.withFetchWord (s : State) (nbits w : Nat) : State :=
  let pc := if s.pc = allOnes then 0#32 else s.pc
  let g := (Memory.seg s.mem 0#32).getD (Segment.zeroed 0#32)
  let grown := if g.len.toNat ≤ pc.toNat then { g with len := BitVec.ofNat 32 (pc.toNat + 1) } else g
  { s with
    mem := Memory.setSeg s.mem 0#32 (grown.setWord pc (tableWord nbits w))
    pc := pc
    run := .running
    fcause := 0#3
    finfo := 0#32 }

end Sys2Proof.Machine
end

