-- ==== Sys2Proof/Safety.lean ====
section
/-! DEFINITION. The terms claims are stated in: a fault taken, what an instruction leaves alone, how a run ends, and the
invariant of the machine (spec/10_state.md R35; spec/60_exceptions.md R210; spec/40_execution_cycle.md R110). -/

namespace Sys2Proof.Machine

/-- Every register but `a` is as before. -/
def KeepsRegsBut (a : RegIdx) (s t : State) : Prop := ∀ r : RegIdx, r ≠ a → t.reg r = s.reg r

/-- Every general register is as before. -/
def KeepsRegs (s t : State) : Prop := ∀ r : RegIdx, t.reg r = s.reg r

/-- Every segment is live as before, as long as before, and every address reads as before. -/
def KeepsMemory (s t : State) : Prop :=
  (∀ h : Word, Memory.live t.mem h = Memory.live s.mem h) ∧
  (∀ h : Word, Memory.len t.mem h = Memory.len s.mem h) ∧
  (∀ h o : Word, memRead t.mem h o = memRead s.mem h o)

/-- The handle pool and the handle counter are as before (R34). -/
def KeepsPool (s t : State) : Prop := t.free = s.free ∧ t.nextHandle = s.nextHandle

/-- The run state and the fault registers are as before (R27, R28). -/
def KeepsStatus (s t : State) : Prop := t.run = s.run ∧ t.fcause = s.fcause ∧ t.finfo = s.finfo

/-- The input port is as before (R41). -/
def KeepsInput (s t : State) : Prop := t.input = s.input ∧ t.inputEnd = s.inputEnd

/-- Both ports are as before, and the machine has the capacity it had (R41, R42, R40). -/
def KeepsPorts (s t : State) : Prop := KeepsInput s t ∧ t.out = s.out ∧ t.capacity = s.capacity

/-- No handle is live (R39). -/
def NothingLive (t : State) : Prop := ∀ h : Word, Memory.live t.mem h = false

/-- R210: `t` is `s` after the entry of a fault with this code and this information Word: the fault registers and the
run state are written, every segment is released, and nothing else changes. -/
def FaultEntered (code : BitVec 3) (info : Word) (s t : State) : Prop :=
  t.run = .faulted ∧ t.fcause = code ∧ t.finfo = info ∧ NothingLive t ∧
  KeepsRegs s t ∧ t.pc = s.pc ∧ KeepsPool s t ∧ KeepsPorts s t

/-- The program counter is one further (R104). At 2^32 − 1, where no instruction of a run stands (R25), nothing is said
(log 8). -/
def Advanced (s t : State) : Prop := s.pc.toNat + 1 < 2 ^ 32 → t.pc.toNat = s.pc.toNat + 1

/-- R110, R43: normal termination. -/
def NormalEnd (s : State) : Prop := s.run = .halted

/-- R110, R43: abnormal termination. -/
def AbnormalEnd (s : State) : Prop := s.run = .faulted

/-! ### The tables of R21 and R216 -/

/-- R216: the codes each instruction can raise, beyond the fetch; for the illegal opcodes the dispatch fault. -/
def causesOf : Instr → List (BitVec 3)
  | .cmov _ _ _ => []
  | .sload _ _ _ => [3#3, 4#3]
  | .sstore _ _ _ => [3#3, 4#3]
  | .add _ _ _ => []
  | .mul _ _ _ => []
  | .div _ _ _ => [2#3]
  | .nand _ _ _ => []
  | .halt => []
  | .map _ _ => [7#3]
  | .unmap _ => [3#3]
  | .out _ => [5#3]
  | .inp _ => []
  | .loadp _ _ => [3#3, 6#3]
  | .lv _ _ => []
  | .illegal14 _ => [1#3]
  | .illegal15 _ => [1#3]

/-- R21: the column "writes". -/
def writtenRegister : Instr → Option RegIdx
  | .cmov a _ _ => some a
  | .sload a _ _ => some a
  | .sstore _ _ _ => none
  | .add a _ _ => some a
  | .mul a _ _ => some a
  | .div a _ _ => some a
  | .nand a _ _ => some a
  | .halt => none
  | .map b _ => some b
  | .unmap _ => none
  | .out _ => none
  | .inp c => some c
  | .loadp _ _ => none
  | .lv a _ => some a
  | .illegal14 _ => none
  | .illegal15 _ => none

/-- R21: the column "reads". -/
def readRegisters : Instr → List RegIdx
  | .cmov _ b c => [b, c]
  | .sload _ b c => [b, c]
  | .sstore a b c => [a, b, c]
  | .add _ b c => [b, c]
  | .mul _ b c => [b, c]
  | .div _ b c => [b, c]
  | .nand _ b c => [b, c]
  | .halt => []
  | .map _ c => [c]
  | .unmap c => [c]
  | .out c => [c]
  | .inp _ => []
  | .loadp b c => [b, c]
  | .lv _ _ => []
  | .illegal14 _ => []
  | .illegal15 _ => []

/-! ### The invariant -/

/-- R35: the invariants of the segment table, (a) to (d), with R34's bounds on `next`. ((e) is the canonical form of
memory, `Memory.wf`: each handle is listed once. (f) is the checked access itself.) -/
structure TableInv (s : State) : Prop where
  programLive : Memory.live s.mem 0#32 = true
  handedOut : ∀ h : Word, 1 ≤ h.toNat → h.toNat < s.nextHandle → (Memory.live s.mem h = true ↔ h ∉ s.free)
  poolOnce : s.free.Nodup
  notYet : ∀ h : Word, s.nextHandle ≤ h.toNat → Memory.live s.mem h = false ∧ h ∉ s.free
  zeroNotPooled : 0#32 ∉ s.free
  nextPositive : 1 ≤ s.nextHandle
  nextBounded : s.nextHandle ≤ 2 ^ 32

/-- The program counter is inside segment 0 or just past its end (R206: the fetch finds no other). -/
def PcInv (s : State) : Prop := ∃ n : Word, Memory.len s.mem 0#32 = some n ∧ s.pc.toNat ≤ n.toNat

/-- The machine's invariant: memory is canonical; while Running the segment table is as R35 says and `pc` as R206 says;
in a terminal state nothing is live (R39); the fault registers are 0 unless Faulted, and then name a cause (R28). -/
structure Inv (s : State) : Prop where
  memory : Memory.wf s.mem = true
  table : s.run = .running → TableInv s
  counter : s.run = .running → PcInv s
  released : s.run ≠ .running → s.mem = []
  noCause : s.run ≠ .faulted → s.fcause = 0#3 ∧ s.finfo = 0#32
  someCause : s.run = .faulted → s.fcause ≠ 0#3

end Sys2Proof.Machine
end

