-- ==== Sys2Proof/Certificates/Slice0/Obligations.lean ====
section
/-! DEFINITION. The statements for the provers, each from a numbered rule of spec/ or derived from its sections. The
opcode and the fields of a Word are written out here by division (spec/30_encoding.md R81 to R84), apart from the decoder's
own functions. -/

namespace Sys2Proof.Claims

open Sys2Proof.Machine

/-- `w[31:28]`. -/
def opcode (w : Word) : Nat := w.toNat / 2 ^ 28
/-- `w[8:6]`. -/
def rA (w : Word) : RegIdx := ⟨w.toNat / 2 ^ 6 % 8, Nat.mod_lt _ (by decide)⟩
/-- `w[5:3]`. -/
def rB (w : Word) : RegIdx := ⟨w.toNat / 2 ^ 3 % 8, Nat.mod_lt _ (by decide)⟩
/-- `w[2:0]`. -/
def rC (w : Word) : RegIdx := ⟨w.toNat % 8, Nat.mod_lt _ (by decide)⟩
/-- `w[27:25]`. -/
def rLv (w : Word) : RegIdx := ⟨w.toNat / 2 ^ 25 % 8, Nat.mod_lt _ (by decide)⟩
/-- `w[24:0]`. -/
def literal (w : Word) : BitVec 25 := BitVec.ofNat 25 (w.toNat % 2 ^ 25)

/-- Memory, the handle pool, the run state, the fault registers and the ports are as before: what an instruction that
only writes registers and `pc` leaves alone. -/
def KeepsRest (s t : State) : Prop := KeepsMemory s t ∧ KeepsPool s t ∧ KeepsStatus s t ∧ KeepsPorts s t

/-- Every segment but `h` is live as before, as long as before, and reads as before. -/
def KeepsOtherSegments (h : Word) (s t : State) : Prop :=
  ∀ h' : Word, h' ≠ h → Memory.live t.mem h' = Memory.live s.mem h' ∧ Memory.len t.mem h' = Memory.len s.mem h' ∧
    ∀ o : Word, memRead t.mem h' o = memRead s.mem h' o

/-- The Word the next fetch takes, where it takes one (R101). -/
def Fetches (s : State) (w : Word) : Prop := s.run = .running ∧ memRead s.mem 0#32 s.pc = .ok w

end Sys2Proof.Claims

open Sys2Proof Sys2Proof.Machine Sys2Proof.Claims

/-! ### One statement per instruction: its words, its result where it completes, its faults, its frame -/

/-- R120: CMOV copies all of x[B] exactly when x[C] is not 0; only x[A] and pc can change. -/
def Obligations.CmovMovesWhenConditionNonzero : Prop :=
  (∀ w : Word, opcode w = 0 → decode w = .cmov (rA w) (rB w) (rC w)) ∧
  (∀ a b c : RegIdx, (encode (.cmov a b c)).toNat = a.val * 64 + b.val * 8 + c.val) ∧
  ∀ (a b c : RegIdx) (s : State), ∃ t, exec (.cmov a b c) s = .next t ∧
    (s.reg c ≠ 0#32 → t.reg a = s.reg b) ∧ (s.reg c = 0#32 → t.reg a = s.reg a) ∧
    KeepsRegsBut a s t ∧ KeepsRest s t ∧ Advanced s t

/-- R125: SLOAD reads segment x[B] at x[C] into x[A]; a dead handle faults before the bounds are looked at. -/
def Obligations.SloadReadsCheckedWord : Prop :=
  (∀ w : Word, opcode w = 1 → decode w = .sload (rA w) (rB w) (rC w)) ∧
  (∀ a b c : RegIdx, (encode (.sload a b c)).toNat = 0x10000000 + a.val * 64 + b.val * 8 + c.val) ∧
  ∀ (a b c : RegIdx) (s : State),
    (∀ n : Word, Memory.len s.mem (s.reg b) = some n → (s.reg c).toNat < n.toNat →
      ∃ t v, exec (.sload a b c) s = .next t ∧ memRead s.mem (s.reg b) (s.reg c) = .ok v ∧ t.reg a = v ∧
        KeepsRegsBut a s t ∧ KeepsRest s t ∧ Advanced s t) ∧
    (Memory.live s.mem (s.reg b) = false →
      ∃ t, exec (.sload a b c) s = .next t ∧ FaultEntered 3#3 (s.reg b) s t) ∧
    (∀ n : Word, Memory.len s.mem (s.reg b) = some n → n.toNat ≤ (s.reg c).toNat →
      ∃ t, exec (.sload a b c) s = .next t ∧ FaultEntered 4#3 (s.reg c) s t)

/-- R126: SSTORE stores x[C] at (x[A], x[B]) and nowhere else; the premise is the canonical form of memory, which every
step keeps. -/
def Obligations.SstoreWritesOneWord : Prop :=
  (∀ w : Word, opcode w = 2 → decode w = .sstore (rA w) (rB w) (rC w)) ∧
  (∀ a b c : RegIdx, (encode (.sstore a b c)).toNat = 0x20000000 + a.val * 64 + b.val * 8 + c.val) ∧
  ∀ (a b c : RegIdx) (s : State), Memory.wf s.mem = true →
    (∀ n : Word, Memory.len s.mem (s.reg a) = some n → (s.reg b).toNat < n.toNat →
      ∃ t, exec (.sstore a b c) s = .next t ∧ memRead t.mem (s.reg a) (s.reg b) = .ok (s.reg c) ∧
        (∀ h o : Word, ¬ (h = s.reg a ∧ o = s.reg b) → memRead t.mem h o = memRead s.mem h o) ∧
        (∀ h : Word, Memory.live t.mem h = Memory.live s.mem h ∧ Memory.len t.mem h = Memory.len s.mem h) ∧
        KeepsRegs s t ∧ KeepsPool s t ∧ KeepsStatus s t ∧ KeepsPorts s t ∧ Advanced s t) ∧
    (Memory.live s.mem (s.reg a) = false →
      ∃ t, exec (.sstore a b c) s = .next t ∧ FaultEntered 3#3 (s.reg a) s t) ∧
    (∀ n : Word, Memory.len s.mem (s.reg a) = some n → n.toNat ≤ (s.reg b).toNat →
      ∃ t, exec (.sstore a b c) s = .next t ∧ FaultEntered 4#3 (s.reg b) s t)

/-- R135: ADD writes the sum modulo 2^32. -/
def Obligations.AddWritesSumModulo : Prop :=
  (∀ w : Word, opcode w = 3 → decode w = .add (rA w) (rB w) (rC w)) ∧
  (∀ a b c : RegIdx, (encode (.add a b c)).toNat = 0x30000000 + a.val * 64 + b.val * 8 + c.val) ∧
  ∀ (a b c : RegIdx) (s : State), ∃ t, exec (.add a b c) s = .next t ∧
    (t.reg a).toNat = ((s.reg b).toNat + (s.reg c).toNat) % 2 ^ 32 ∧
    KeepsRegsBut a s t ∧ KeepsRest s t ∧ Advanced s t

/-- R136: MUL writes the product modulo 2^32. -/
def Obligations.MulWritesProductModulo : Prop :=
  (∀ w : Word, opcode w = 4 → decode w = .mul (rA w) (rB w) (rC w)) ∧
  (∀ a b c : RegIdx, (encode (.mul a b c)).toNat = 0x40000000 + a.val * 64 + b.val * 8 + c.val) ∧
  ∀ (a b c : RegIdx) (s : State), ∃ t, exec (.mul a b c) s = .next t ∧
    (t.reg a).toNat = ((s.reg b).toNat * (s.reg c).toNat) % 2 ^ 32 ∧
    KeepsRegsBut a s t ∧ KeepsRest s t ∧ Advanced s t

/-- R137: DIV writes the unsigned quotient q, the greatest with q·x[C] ≤ x[B]; a zero divisor faults with the dividend. -/
def Obligations.DivWritesQuotientOrFaults : Prop :=
  (∀ w : Word, opcode w = 5 → decode w = .div (rA w) (rB w) (rC w)) ∧
  (∀ a b c : RegIdx, (encode (.div a b c)).toNat = 0x50000000 + a.val * 64 + b.val * 8 + c.val) ∧
  ∀ (a b c : RegIdx) (s : State),
    (s.reg c ≠ 0#32 → ∃ t, exec (.div a b c) s = .next t ∧
      (t.reg a).toNat * (s.reg c).toNat ≤ (s.reg b).toNat ∧
      (s.reg b).toNat < ((t.reg a).toNat + 1) * (s.reg c).toNat ∧
      KeepsRegsBut a s t ∧ KeepsRest s t ∧ Advanced s t) ∧
    (s.reg c = 0#32 → ∃ t, exec (.div a b c) s = .next t ∧ FaultEntered 2#3 (s.reg b) s t)

/-- R138: NAND complements the AND in each of the 32 bit positions. -/
def Obligations.NandComplementsEachBit : Prop :=
  (∀ w : Word, opcode w = 6 → decode w = .nand (rA w) (rB w) (rC w)) ∧
  (∀ a b c : RegIdx, (encode (.nand a b c)).toNat = 0x60000000 + a.val * 64 + b.val * 8 + c.val) ∧
  ∀ (a b c : RegIdx) (s : State), ∃ t, exec (.nand a b c) s = .next t ∧
    (∀ k : Nat, k < 32 → (t.reg a).getLsbD k = !((s.reg b).getLsbD k && (s.reg c).getLsbD k)) ∧
    KeepsRegsBut a s t ∧ KeepsRest s t ∧ Advanced s t

/-- R150: HALT ends the run normally, with pc one further and every segment released; nothing else changes. -/
def Obligations.HaltReleasesAndStops : Prop :=
  (∀ w : Word, opcode w = 7 → decode w = .halt) ∧
  encode .halt = 0x70000000#32 ∧
  ∀ s : State, ∃ t, exec .halt s = .next t ∧ NormalEnd t ∧ NothingLive t ∧ Advanced s t ∧
    KeepsRegs s t ∧ t.fcause = s.fcause ∧ t.finfo = s.finfo ∧ KeepsPool s t ∧ KeepsPorts s t

/-- R155: MAP makes one handle live, zero-filled and x[C] Words long, and puts it in x[B]; the handle is the top of the
pool, else `next`; it was not live and is not 0 (under R35's invariant); a refused request faults. -/
def Obligations.MapCreatesZeroedSegment : Prop :=
  (∀ w : Word, opcode w = 8 → decode w = .map (rB w) (rC w)) ∧
  (∀ b c : RegIdx, (encode (.map b c)).toNat = 0x80000000 + b.val * 8 + c.val) ∧
  ∀ (b c : RegIdx) (s : State),
    (mapRefused s (s.reg c) = false → ∃ t h, exec (.map b c) s = .next t ∧ t.reg b = h ∧
      (∀ top rest, s.free = top :: rest → h = top ∧ t.free = rest ∧ t.nextHandle = s.nextHandle) ∧
      (s.free = [] → h.toNat = s.nextHandle ∧ t.free = [] ∧ t.nextHandle = s.nextHandle + 1) ∧
      (TableInv s → h ≠ 0#32 ∧ Memory.live s.mem h = false) ∧
      Memory.live t.mem h = true ∧ Memory.len t.mem h = some (s.reg c) ∧
      (∀ o : Word, o.toNat < (s.reg c).toNat → memRead t.mem h o = .ok 0#32) ∧
      KeepsOtherSegments h s t ∧ KeepsRegsBut b s t ∧ KeepsStatus s t ∧ KeepsPorts s t ∧ Advanced s t) ∧
    (mapRefused s (s.reg c) = true →
      ∃ t, exec (.map b c) s = .next t ∧ FaultEntered 7#3 (s.reg c) s t)

/-- R158: UNMAP makes the handle not live and puts it on top of the pool; handle 0 and a dead handle fault. The premise is
the canonical form of memory, which every step keeps. -/
def Obligations.UnmapReleasesOrFaults : Prop :=
  (∀ w : Word, opcode w = 9 → decode w = .unmap (rC w)) ∧
  (∀ c : RegIdx, (encode (.unmap c)).toNat = 0x90000000 + c.val) ∧
  ∀ (c : RegIdx) (s : State), Memory.wf s.mem = true →
    (s.reg c ≠ 0#32 → Memory.live s.mem (s.reg c) = true → ∃ t, exec (.unmap c) s = .next t ∧
      Memory.live t.mem (s.reg c) = false ∧ t.free = s.reg c :: s.free ∧ t.nextHandle = s.nextHandle ∧
      KeepsOtherSegments (s.reg c) s t ∧ KeepsRegs s t ∧ KeepsStatus s t ∧ KeepsPorts s t ∧ Advanced s t) ∧
    (s.reg c = 0#32 ∨ Memory.live s.mem (s.reg c) = false →
      ∃ t, exec (.unmap c) s = .next t ∧ FaultEntered 3#3 (s.reg c) s t)

/-- R170: OUT appends exactly the byte x[C] below 256; 256 and above fault and write nothing. -/
def Obligations.OutAppendsByteOrFaults : Prop :=
  (∀ w : Word, opcode w = 10 → decode w = .out (rC w)) ∧
  (∀ c : RegIdx, (encode (.out c)).toNat = 0xA0000000 + c.val) ∧
  ∀ (c : RegIdx) (s : State),
    ((s.reg c).toNat < 256 → ∃ t b, exec (.out c) s = .next t ∧ t.out = s.out ++ [b] ∧
      b.toNat = (s.reg c).toNat ∧ KeepsRegs s t ∧ KeepsMemory s t ∧ KeepsPool s t ∧ KeepsStatus s t ∧
      KeepsInput s t ∧ t.capacity = s.capacity ∧ Advanced s t) ∧
    (256 ≤ (s.reg c).toNat → ∃ t, exec (.out c) s = .next t ∧ FaultEntered 5#3 (s.reg c) s t)

/-- R172: IN takes one byte, zero-extended, or gives all ones at the end; with nothing presented it holds. -/
def Obligations.InTakesByteOrSentinel : Prop :=
  (∀ w : Word, opcode w = 11 → decode w = .inp (rC w)) ∧
  (∀ c : RegIdx, (encode (.inp c)).toNat = 0xB0000000 + c.val) ∧
  ∀ (c : RegIdx) (s : State),
    (∀ b rest, s.input = b :: rest → ∃ t, exec (.inp c) s = .next t ∧ (t.reg c).toNat = b.toNat ∧
      t.input = rest ∧ t.inputEnd = s.inputEnd ∧ t.out = s.out ∧ t.capacity = s.capacity ∧
      KeepsRegsBut c s t ∧ KeepsMemory s t ∧ KeepsPool s t ∧ KeepsStatus s t ∧ Advanced s t) ∧
    (s.input = [] → s.inputEnd = true → ∃ t, exec (.inp c) s = .next t ∧ (t.reg c).toNat = 2 ^ 32 - 1 ∧
      KeepsRegsBut c s t ∧ KeepsRest s t ∧ Advanced s t) ∧
    (s.input = [] → s.inputEnd = false → exec (.inp c) s = .next s)

/-- R180: LOADP jumps to x[C], after replacing segment 0 by a copy of segment x[B] when x[B] is not 0; the checks come
first, against the length segment 0 is about to have. -/
def Obligations.LoadpReplacesProgramAndJumps : Prop :=
  (∀ w : Word, opcode w = 12 → decode w = .loadp (rB w) (rC w)) ∧
  (∀ b c : RegIdx, (encode (.loadp b c)).toNat = 0xC0000000 + b.val * 8 + c.val) ∧
  ∀ (b c : RegIdx) (s : State),
    (∀ n : Word, s.reg b = 0#32 → Memory.len s.mem 0#32 = some n → (s.reg c).toNat < n.toNat →
      ∃ t, exec (.loadp b c) s = .next t ∧ t.pc = s.reg c ∧ KeepsRegs s t ∧ KeepsRest s t) ∧
    (∀ n : Word, s.reg b ≠ 0#32 → Memory.len s.mem (s.reg b) = some n → (s.reg c).toNat < n.toNat →
      ∃ t, exec (.loadp b c) s = .next t ∧ t.pc = s.reg c ∧
        Memory.len t.mem 0#32 = some n ∧ (∀ o : Word, memRead t.mem 0#32 o = memRead s.mem (s.reg b) o) ∧
        KeepsOtherSegments 0#32 s t ∧ KeepsRegs s t ∧ KeepsPool s t ∧ KeepsStatus s t ∧ KeepsPorts s t) ∧
    (s.reg b ≠ 0#32 → Memory.live s.mem (s.reg b) = false →
      ∃ t, exec (.loadp b c) s = .next t ∧ FaultEntered 3#3 (s.reg b) s t) ∧
    (∀ n : Word, Memory.len s.mem (s.reg b) = some n → n.toNat ≤ (s.reg c).toNat →
      ∃ t, exec (.loadp b c) s = .next t ∧ FaultEntered 6#3 (s.reg c) s t)

/-- R190: LV writes the 25-bit literal, zero-extended, into the register named by bits 27:25. -/
def Obligations.LvWritesZeroExtendedLiteral : Prop :=
  (∀ w : Word, opcode w = 13 → decode w = .lv (rLv w) (literal w)) ∧
  (∀ (a : RegIdx) (imm : BitVec 25), (encode (.lv a imm)).toNat = 0xD0000000 + a.val * 2 ^ 25 + imm.toNat) ∧
  ∀ (a : RegIdx) (imm : BitVec 25) (s : State), ∃ t, exec (.lv a imm) s = .next t ∧
    (t.reg a).toNat = imm.toNat ∧ KeepsRegsBut a s t ∧ KeepsRest s t ∧ Advanced s t

/-- R88, R201: exactly the opcodes 14 and 15 are illegal; they raise InvalidOpcode with the whole Word and execute
nothing. -/
def Obligations.IllegalOpcodesRaiseInvalidOpcode : Prop :=
  (∀ w : Word, 13 < opcode w → ∀ s : State, ∃ t, exec (decode w) s = .next t ∧ FaultEntered 1#3 w s t) ∧
  (∀ (low : BitVec 28) (s : State), ∃ t, exec (.illegal14 low) s = .next t ∧
    FaultEntered 1#3 (BitVec.ofNat 32 (14 * 2 ^ 28 + low.toNat)) s t) ∧
  (∀ (low : BitVec 28) (s : State), ∃ t, exec (.illegal15 low) s = .next t ∧
    FaultEntered 1#3 (BitVec.ofNat 32 (15 * 2 ^ 28 + low.toNat)) s t) ∧
  (∀ w : Word, opcode w ≤ 13 → ∀ low : BitVec 28, decode w ≠ .illegal14 low ∧ decode w ≠ .illegal15 low)

/-! ### The decoder, the encoder and the program image -/

/-- For every instruction, with every operand, decoding its canonical Word gives it back (from R85 and R93). -/
def Obligations.DecodeInvertsEncode : Prop := ∀ i : Instr, decode (encode i) = i

/-- Encoding what a Word decodes to keeps its opcode and the fields its operation reads, every bit of them, and puts zeros
in all other bits (from R83, R84, R89, R90 and R93). -/
def Obligations.ReencodingClearsOnlyUnreadBits : Prop :=
  ∀ w : Word,
    (opcode w ≤ 6 → (encode (decode w)).toNat = opcode w * 2 ^ 28 + w.toNat % 2 ^ 9) ∧
    (opcode w = 7 → (encode (decode w)).toNat = opcode w * 2 ^ 28) ∧
    (opcode w = 8 ∨ opcode w = 12 → (encode (decode w)).toNat = opcode w * 2 ^ 28 + w.toNat % 2 ^ 6) ∧
    (opcode w = 9 ∨ opcode w = 10 ∨ opcode w = 11 →
      (encode (decode w)).toNat = opcode w * 2 ^ 28 + w.toNat % 2 ^ 3) ∧
    (13 ≤ opcode w → encode (decode w) = w)

/-- Every Word is the instruction of exactly the row whose match value its top four bits give (from R82 and R87). -/
def Obligations.EveryWordHasItsTableRow : Prop :=
  ∀ (w : Word) (k : Nat), k < 16 →
    ((decode w).opcode = k ↔ w &&& 0xF0000000#32 = BitVec.ofNat 32 (k * 2 ^ 28))

/-- R90: a field an operation does not read gives the same instruction whatever it holds, and the canonical Word has
zeros there. -/
def Obligations.UnreadFieldsGiveSameInstruction : Prop :=
  (∀ w w' : Word, opcode w = opcode w' →
    (opcode w = 7 → decode w = decode w') ∧
    (opcode w = 9 ∨ opcode w = 10 ∨ opcode w = 11 → rC w = rC w' → decode w = decode w') ∧
    (opcode w = 8 ∨ opcode w = 12 → rB w = rB w' → rC w = rC w' → decode w = decode w')) ∧
  (encode .halt = 0x70000000#32) ∧
  (∀ c : RegIdx, (rA (encode (.unmap c)) = 0 ∧ rB (encode (.unmap c)) = 0) ∧
    (rA (encode (.out c)) = 0 ∧ rB (encode (.out c)) = 0) ∧ (rA (encode (.inp c)) = 0 ∧ rB (encode (.inp c)) = 0)) ∧
  (∀ b c : RegIdx, rA (encode (.map b c)) = 0 ∧ rA (encode (.loadp b c)) = 0)

/-- R92: a Word of the image is four bytes, most significant first, and reads back as its instruction. -/
def Obligations.ImageBytesDecodeBigEndian : Prop :=
  ∀ (w : Word) (rest : List Byte),
    (bytesOfWord w).map BitVec.toNat =
      [w.toNat / 2 ^ 24, w.toNat / 2 ^ 16 % 2 ^ 8, w.toNat / 2 ^ 8 % 2 ^ 8, w.toNat % 2 ^ 8] ∧
    decodeBytes (bytesOfWord w ++ rest) = .ok (decode w, rest)

/-- R231: the Loader puts Word k, made big-endian of bytes 4k to 4k+3, at offset k of segment 0, whose length is the
number of Words; then the machine stands at its first step. The image is no part of the input stream. -/
def Obligations.LoaderFillsProgramSegment : Prop :=
  ∀ (image input : List Byte) (e : Bool) (cap : Capacity), imageWf image = true →
    ∃ s, loadImage image input e cap = some s ∧ s.run = .running ∧ s.pc = 0#32 ∧ s.input = input ∧
      Memory.len s.mem 0#32 = some (BitVec.ofNat 32 (image.length / 4)) ∧
      ∀ k : Nat, k < image.length / 4 → ∃ w : Word, memRead s.mem 0#32 (BitVec.ofNat 32 k) = .ok w ∧
        w.toNat = (image.getD (4 * k) 0#8).toNat * 2 ^ 24 + (image.getD (4 * k + 1) 0#8).toNat * 2 ^ 16 +
          (image.getD (4 * k + 2) 0#8).toNat * 2 ^ 8 + (image.getD (4 * k + 3) 0#8).toNat

/-- Only a PROGRAM of at most 2^32 − 1 Words, and only an image of that many whole Words, gives the model a run; the
empty image is one, and its first step raises InvalidProgramCounter (from R232; that the model refuses every other image
is log 13). -/
def Obligations.OnlyWholeImagesWithinLimitRun : Prop :=
  ∀ (input : List Byte) (e : Bool) (cap : Capacity),
    (∀ program : List Word, (∃ s, launch program input e cap = some s) ↔ program.length ≤ 2 ^ 32 - 1) ∧
    (∀ image : List Byte, (∃ s, loadImage image input e cap = some s) ↔
      image.length % 4 = 0 ∧ image.length / 4 ≤ 2 ^ 32 - 1) ∧
    (∃ s t, loadImage [] input e cap = some s ∧ step s = .next t ∧ FaultEntered 6#3 0#32 s t)

/-- Words written out from the encodings of spec/30_encoding.md (and of the vectors of 95_test_vectors.md, section 2.1). -/
def Obligations.WrittenOutWordsDecode : Prop :=
  decode 0x00000053#32 = .cmov 1 2 3 ∧ decode 0x10000053#32 = .sload 1 2 3 ∧ decode 0x20000053#32 = .sstore 1 2 3 ∧
  decode 0x3FFFFECA#32 = .add 3 1 2 ∧ decode 0x500000CA#32 = .div 3 1 2 ∧ decode 0x7FFFFFFF#32 = .halt ∧
  decode 0x800001D1#32 = .map 2 1 ∧ decode 0x90000003#32 = .unmap 3 ∧ decode 0xAFFFFFFB#32 = .out 3 ∧
  decode 0xB0000001#32 = .inp 1 ∧ decode 0xC0000010#32 = .loadp 2 0 ∧ decode 0xDFFFFFFF#32 = .lv 7 0x1FFFFFF#25 ∧
  decode 0xE0000123#32 = .illegal14 0x123#28

/-- The assembler of R93 accepts an LV line exactly for a register r0 to r7 and a literal below 2^25, and its Word then
decodes to that instruction. -/
def Obligations.AssemblerRefusesWideLiterals : Prop :=
  ∀ a imm : Nat,
    ((assembleLine (.lv a imm)).isSome = true ↔ a < 8 ∧ imm < 2 ^ 25) ∧
    ∀ w : Word, assembleLine (.lv a imm) = some w →
      ∃ (r : RegIdx) (l : BitVec 25), r.val = a ∧ l.toNat = imm ∧ decode w = .lv r l

/-! ### The step -/

/-- Fetch, decode, dispatch: when the Word at pc can be fetched, the step is the meaning of the instruction it decodes to,
at the same state; the meaning carries the rest of the step (log 9). -/
def Obligations.StepRunsDecodedInstruction : Prop :=
  ∀ (s : State) (w : Word), Fetches s w → step s = exec (decode w) s

/-- R101: the fetch takes `seg[0][pc]` when pc is below len(0), and raises InvalidProgramCounter with pc otherwise. -/
def Obligations.FetchChecksProgramCounter : Prop :=
  ∀ (s : State) (n : Word), s.run = .running → Memory.len s.mem 0#32 = some n →
    (s.pc.toNat < n.toNat → ∃ w, memRead s.mem 0#32 s.pc = .ok w ∧ fetch s = .word w) ∧
    (n.toNat ≤ s.pc.toNat → ∃ t, step s = .next t ∧ FaultEntered 6#3 s.pc s t)

/-- In Halted and in Faulted nothing changes, however many steps are taken (from R100; that a step then answers the same
state is the model's reading, log 5). -/
def Obligations.TerminalStatesNeverChange : Prop :=
  ∀ (k : Nat) (s : State), s.run ≠ .running → Host.Core.run Sys2Proof.core k s = .next s

/-- R104: every instruction but Load program moves pc one further unless it faults, and Load program sets it to x[C] with
nothing added. (An Input that is still waiting has not completed its step, R106.) -/
def Obligations.OnlyLoadpSetsProgramCounter : Prop :=
  ∀ (i : Instr) (s t : State), s.run = .running → exec i s = .next t → t.run ≠ .faulted →
    (∀ b c, i = .loadp b c → t.pc = s.reg c) ∧
    ((∀ b c, i ≠ .loadp b c) → ¬ ((∃ c, i = .inp c) ∧ s.input = [] ∧ s.inputEnd = false) → Advanced s t)

/-- R210: whatever step faults, what it leaves is the fault entry of one of the seven causes and nothing else. -/
def Obligations.FaultingStepOnlyEntersFault : Prop :=
  ∀ s t : State, s.run = .running → step s = .next t → AbnormalEnd t →
    ∃ (code : BitVec 3) (info : Word), code ≠ 0#3 ∧ FaultEntered code info s t

/-- R216: which instruction can raise what: a code is raised by some running state exactly when the table lists it. -/
def Obligations.InstructionsRaiseOnlyListedCauses : Prop :=
  ∀ (i : Instr) (code : BitVec 3),
    (∃ s t, s.run = .running ∧ exec i s = .next t ∧ t.run = .faulted ∧ t.fcause = code) ↔ code ∈ causesOf i

/-- R27: Running becomes Halted by Halt only and Faulted by a fault only; nothing leaves Halted or Faulted; after reset
the machine is Running. -/
def Obligations.RunStateTransitions : Prop :=
  (∀ s t : State, step s = .next t →
    (s.run = .halted → t.run = .halted) ∧ (s.run = .faulted → t.run = .faulted) ∧
    (s.run = .running → (t.run = .halted ↔ ∃ w, Fetches s w ∧ opcode w = 7)) ∧
    (s.run = .running → t.run = .faulted → ∃ code info, code ≠ 0#3 ∧ FaultEntered code info s t)) ∧
  (∀ program input e cap s, launch program input e cap = some s → s.run = .running)

/-- The register table of R21: an instruction writes no register but the one its row names, and a register it does not
read has no influence on anything but itself (for the spec's default capacity; another capacity predicate may look at the
whole state, R40). -/
def Obligations.RegistersReadAndWrittenAsListed : Prop :=
  ∀ (i : Instr) (s t : State), exec i s = .next t →
    (∀ r, writtenRegister i ≠ some r → t.reg r = s.reg r) ∧
    (s.capacity = .handlesOnly → ∀ (r : RegIdx) (v : Word), r ∉ readRegisters i →
      ∃ t', exec i (s.setReg r v) = .next t' ∧ (∀ r', r' ≠ r → t'.reg r' = t.reg r') ∧ t'.pc = t.pc ∧ KeepsRest t t')

/-- R42: the output stream is empty after reset; only an Output instruction lengthens it, by one byte at its end; every
byte is accepted; a byte once written is never withdrawn. -/
def Obligations.OutputStreamOnlyGrows : Prop :=
  (∀ program input e cap s, launch program input e cap = some s → s.out = []) ∧
  (∀ s t : State, step s = .next t → t.out = s.out ∨
    ∃ w b, Fetches s w ∧ opcode w = 10 ∧ b.toNat = (s.reg (rC w)).toNat ∧ t.out = s.out ++ [b]) ∧
  (∀ (s : State) (w : Word), Fetches s w → opcode w = 10 → (s.reg (rC w)).toNat < 2 ^ 8 →
    ∃ t b, step s = .next t ∧ b.toNat = (s.reg (rC w)).toNat ∧ t.out = s.out ++ [b]) ∧
  (∀ (k : Nat) (s t : State), Host.Core.run Sys2Proof.core k s = .next t → s.out <+: t.out)

/-- Only an Input instruction takes an item of the input port, and it takes the first (from R41; the port as a list of
presented bytes is log 4). No step changes whether `end` follows, nor the machine's capacity (log 3). -/
def Obligations.InputTakenOnlyByIn : Prop :=
  ∀ s t : State, step s = .next t →
    (t.inputEnd = s.inputEnd ∧ t.capacity = s.capacity) ∧
    (t.input = s.input ∨
      ∃ w b, Fetches s w ∧ opcode w = 11 ∧ s.input = b :: t.input ∧ (t.reg (rC w)).toNat = b.toNat)

/-- The host and a waiting Input (from R41 and R172; log 4, log 12): nothing changes until the environment presents a byte
or `end`, and then it completes. -/
def Obligations.WaitingInputCompletesWhenPresented : Prop :=
  ∀ (c : RegIdx) (s : State) (b : Byte), s.input = [] → s.inputEnd = false →
    exec (.inp c) s = .next s ∧
    (∃ t, exec (.inp c) (presentByte b s) = .next t ∧ (t.reg c).toNat = b.toNat ∧ t.input = [] ∧ Advanced s t) ∧
    (∃ t, exec (.inp c) (presentEnd s) = .next t ∧ (t.reg c).toNat = 2 ^ 32 - 1 ∧ Advanced s t)

/-- The model stops in one case only: a Running state without segment 0, which R31 excludes (log 7); no instruction is
refused. (The next state of a terminal state is the model's reading, log 5, and so is that of a waiting Input, log 4.) -/
def Obligations.OnlyMissingProgramStops : Prop :=
  ∀ s : State, (∃ t, step s = .next t) ∨
    (s.run = .running ∧ Memory.live s.mem 0#32 = false ∧ step s = .fault .programSegmentMissing)

/-- Where the host places one Word, the very next step runs it, in every state with canonical memory (log 11). -/
def Obligations.PlacedWordRunsNext : Prop :=
  ∀ (s : State) (w : Word), Memory.wf s.mem = true →
    step (s.withFetchWord 32 w.toNat) = exec (decode w) (s.withFetchWord 32 w.toNat)

/-! ### Memory and the segment table -/

/-- R54: liveness is checked first: a dead handle reports UnmappedSegmentAccess whatever the offset; only a live handle
can report the bounds; for reads and writes alike. -/
def Obligations.LivenessCheckedBeforeBounds : Prop :=
  ∀ (m : Memory) (h o v : Word),
    (Memory.live m h = false →
      memRead m h o = .error { cause := .unmappedSegmentAccess, info := h } ∧
      memWrite m h o v = .error { cause := .unmappedSegmentAccess, info := h }) ∧
    (∀ n : Word, Memory.len m h = some n → n.toNat ≤ o.toNat →
      memRead m h o = .error { cause := .outOfBoundsOffset, info := o } ∧
      memWrite m h o v = .error { cause := .outOfBoundsOffset, info := o }) ∧
    (∀ n : Word, Memory.len m h = some n → o.toNat < n.toNat →
      (∃ w, memRead m h o = .ok w) ∧ (∃ m', memWrite m h o v = .ok m'))

/-- R53: the checked write fails exactly where the read does, and where it succeeds it changes exactly one Word: reading
there gives all 32 bits of the value, and every other Word, every length and every handle's liveness is as before. The
premise is the canonical form, which every operation keeps. -/
def Obligations.WriteChangesExactlyOneWord : Prop :=
  ∀ (m : Memory) (h o v : Word), Memory.wf m = true →
    ((∃ m', memWrite m h o v = .ok m') ↔ (∃ w, memRead m h o = .ok w)) ∧
    (∀ r, memRead m h o = .error r → memWrite m h o v = .error r) ∧
    (∀ m', memWrite m h o v = .ok m' →
      memRead m' h o = .ok v ∧
      (∀ h' o' : Word, ¬ (h' = h ∧ o' = o) → memRead m' h' o' = memRead m h' o') ∧
      (∀ h' : Word, Memory.live m' h' = Memory.live m h' ∧ Memory.len m' h' = Memory.len m h'))

/-- R38: after SegLoadProgram segment 0 is an independent copy of the live segment h, which stays as it is: a later store
to either is not seen in the other. -/
def Obligations.LoadedProgramIsIndependentCopy : Prop :=
  ∀ (m : Memory) (h : Word),
    (Memory.live m h = false → segLoadProgram m h = .error { cause := .unmappedSegmentAccess, info := h }) ∧
    (Memory.live m h = true → ∃ m', segLoadProgram m h = .ok m' ∧
      Memory.len m' 0#32 = Memory.len m h ∧ (∀ o, memRead m' 0#32 o = memRead m h o) ∧
      (∀ h' : Word, h' ≠ 0#32 → Memory.len m' h' = Memory.len m h' ∧ ∀ o, memRead m' h' o = memRead m h' o) ∧
      (h ≠ 0#32 → ∀ (o v : Word) (m'' : Memory),
        (memWrite m' 0#32 o v = .ok m'' → ∀ o', memRead m'' h o' = memRead m h o') ∧
        (memWrite m' h o v = .ok m'' → ∀ o', memRead m'' 0#32 o' = memRead m h o')))

/-- Two memories in canonical form that agree on which handles are live, on every length and on every read are the same
data (log 6). -/
def Obligations.CanonicalMemoryIsExtensional : Prop :=
  ∀ m m' : Memory, Memory.wf m = true → Memory.wf m' = true →
    (∀ h : Word, Memory.len m h = Memory.len m' h) → (∀ h o : Word, memRead m h o = memRead m' h o) → m = m'

/-- R40: a Map is refused when the pool is empty and `next = 2^32`; with the spec's default capacity in that case only
(`next` never exceeds 2^32, R34); a refused Map raises ResourceExhausted with the length it asked for. -/
def Obligations.MapRefusedWhenHandlesRunOut : Prop :=
  (∀ (s : State) (n : Word), s.free = [] → s.nextHandle = 2 ^ 32 → mapRefused s n = true) ∧
  (∀ (s : State) (n : Word), s.capacity = .handlesOnly → s.nextHandle ≤ 2 ^ 32 →
    (mapRefused s n = true ↔ s.free = [] ∧ s.nextHandle = 2 ^ 32)) ∧
  (∀ (b c : RegIdx) (s : State), mapRefused s (s.reg c) = true →
    ∃ t, exec (.map b c) s = .next t ∧ FaultEntered 7#3 (s.reg c) s t)

/-- R156: three Maps on a machine just reset return 1, 2, 3; the handle released last is the first handed out again, the
one released before it the second, and then, when no other was in the pool, `next`. -/
def Obligations.HandlesReusedLastReleasedFirst : Prop :=
  (∀ program input e (b c1 c2 c3 : RegIdx) (s s1 s2 s3 : State),
    launch program input e .handlesOnly = some s → exec (.map b c1) s = .next s1 →
    exec (.map b c2) s1 = .next s2 → exec (.map b c3) s2 = .next s3 →
    s1.reg b = 1#32 ∧ s2.reg b = 2#32 ∧ s3.reg b = 3#32) ∧
  (∀ (c c' b n : RegIdx) (s t u v w x : State), Inv s → s.run = .running → s.capacity = .handlesOnly →
    exec (.unmap c) s = .next t → t.run = .running → exec (.unmap c') t = .next u → u.run = .running →
    exec (.map b n) u = .next v → exec (.map b n) v = .next w → exec (.map b n) w = .next x →
    v.reg b = s.reg c' ∧ w.reg b = s.reg c ∧
      (s.free = [] → s.nextHandle < 2 ^ 32 → (x.reg b).toNat = s.nextHandle))

/-- R32: no step changes the length of a live segment other than 0; the length of segment 0 changes only by a Load
program with x[B] not 0, and then it becomes the length of that segment. The premise is the machine's invariant, which
every step keeps. -/
def Obligations.SegmentLengthsNeverChange : Prop :=
  ∀ s t : State, Inv s → step s = .next t →
    (∀ (h n n' : Word), h ≠ 0#32 → Memory.len s.mem h = some n → Memory.len t.mem h = some n' → n' = n) ∧
    (∀ n n' : Word, Memory.len s.mem 0#32 = some n → Memory.len t.mem 0#32 = some n' → n' ≠ n →
      ∃ w, Fetches s w ∧ opcode w = 12 ∧ s.reg (rB w) ≠ 0#32 ∧ Memory.len s.mem (s.reg (rB w)) = some n')

/-- A store into the Word after the running instruction is what the next step executes, with nothing between (from R64). -/
def Obligations.StoredInstructionRunsNext : Prop :=
  ∀ (s : State) (w : Word) (a b c : RegIdx) (n : Word), Memory.wf s.mem = true → Fetches s w →
    decode w = .sstore a b c → s.reg a = 0#32 → Memory.len s.mem 0#32 = some n →
    (s.reg b).toNat = s.pc.toNat + 1 → (s.reg b).toNat < n.toNat →
    ∃ t, step s = .next t ∧ step t = exec (decode (s.reg c)) t

/-! ### Reset and the invariant -/

/-- R44: the state after reset, complete, for every PROGRAM (R232: of at most 2^32 − 1 Words) and INPUT. -/
def Obligations.ResetGivesEveryListedValue : Prop :=
  ∀ (program : List Word) (input : List Byte) (e : Bool) (cap : Capacity), program.length ≤ 2 ^ 32 - 1 →
    ∃ s, launch program input e cap = some s ∧
    (∀ r, s.reg r = 0#32) ∧ s.pc = 0#32 ∧ s.run = .running ∧ s.fcause = 0#3 ∧ s.finfo = 0#32 ∧
    Memory.len s.mem 0#32 = some (BitVec.ofNat 32 program.length) ∧
    (∀ k : Nat, (hk : k < program.length) → memRead s.mem 0#32 (BitVec.ofNat 32 k) = .ok program[k]) ∧
    (∀ h : Word, Memory.live s.mem h = true ↔ h = 0#32) ∧
    s.free = [] ∧ s.nextHandle = 1 ∧ s.input = input ∧ s.out = []

/-- Every launched machine meets the invariant, State.reset among them (State.reset's own PROGRAM, INPUT and capacity are
the model's choice, log 1, log 2, log 3; nothing else of it is). -/
def Obligations.LaunchMeetsInvariant : Prop :=
  (∀ (program : List Word) (input : List Byte) (e : Bool) (cap : Capacity) (s : State),
    launch program input e cap = some s → Inv s) ∧
  launch [] [] true .handlesOnly = some State.reset ∧ Inv State.reset

/-- Every step keeps the machine's invariant, from every state that has it, whatever its capacity: memory stays
canonical, every handle below `next` is live or pooled and never both, handle 0 stays live while Running, pc stays inside
segment 0 or just past it, a terminal state has nothing live, and the fault registers are 0 unless Faulted. -/
def Obligations.StepKeepsInvariant : Prop :=
  ∀ s t : State, Inv s → step s = .next t → Inv t

/-- From a state with the invariant the model's step is never a fault or a refusal: iterated any number of times it answers
a state, with the invariant. That it answers in Halted and in Faulted, where the spec has no step and the run has ended
(R100, R110), is the model's reading (log 5); so is that it answers, with the same state, while an Input waits, which the
spec calls stuck (spec/93_implementation_defined.md U9; log 4). It does not say that a run lasts for ever. -/
def Obligations.StepAnswersFromInvariantStates : Prop :=
  ∀ (k : Nat) (s : State), Inv s → ∃ t, Host.Core.run Sys2Proof.core k s = .next t ∧ Inv t
end

