-- ==== Sys2Proof/Laws/State.lean ====
section
/-! SUPPORT. One lemma per field per update of State, so that no proof unfolds a record update. -/

namespace Sys2Proof.Machine

/-! ### Reading a register -/

@[simp] theorem setReg_reg_self (s : State) (i : RegIdx) (v : Word) : (s.setReg i v).reg i = v := by
  simp [State.reg, State.setReg, Vector.get_eq_getElem]

theorem setReg_reg_of_ne (s : State) {i j : RegIdx} (v : Word) (h : j ≠ i) : (s.setReg i v).reg j = s.reg j := by
  have : i.val ≠ j.val := fun e => h (Fin.ext e.symm)
  simp [State.reg, State.setReg, Vector.get_eq_getElem, Vector.getElem_set_ne, this]

theorem setReg_reg (s : State) (i j : RegIdx) (v : Word) : (s.setReg i v).reg j = if j = i then v else s.reg j := by
  by_cases h : j = i
  · subst h; simp
  · simp [h, setReg_reg_of_ne s v h]

theorem reg_congr {s t : State} (h : t.regs = s.regs) (i : RegIdx) : t.reg i = s.reg i := by
  simp [State.reg, h]

/-! ### `x[i] <- v` writes the register file only (R21). -/

@[simp] theorem setReg_regs (s : State) (i : RegIdx) (v : Word) : (s.setReg i v).regs = s.regs.set i.val v i.isLt := rfl
@[simp] theorem setReg_pc (s : State) (i : RegIdx) (v : Word) : (s.setReg i v).pc = s.pc := rfl
@[simp] theorem setReg_run (s : State) (i : RegIdx) (v : Word) : (s.setReg i v).run = s.run := rfl
@[simp] theorem setReg_fcause (s : State) (i : RegIdx) (v : Word) : (s.setReg i v).fcause = s.fcause := rfl
@[simp] theorem setReg_finfo (s : State) (i : RegIdx) (v : Word) : (s.setReg i v).finfo = s.finfo := rfl
@[simp] theorem setReg_mem (s : State) (i : RegIdx) (v : Word) : (s.setReg i v).mem = s.mem := rfl
@[simp] theorem setReg_free (s : State) (i : RegIdx) (v : Word) : (s.setReg i v).free = s.free := rfl
@[simp] theorem setReg_nextHandle (s : State) (i : RegIdx) (v : Word) : (s.setReg i v).nextHandle = s.nextHandle := rfl
@[simp] theorem setReg_input (s : State) (i : RegIdx) (v : Word) : (s.setReg i v).input = s.input := rfl
@[simp] theorem setReg_inputEnd (s : State) (i : RegIdx) (v : Word) : (s.setReg i v).inputEnd = s.inputEnd := rfl
@[simp] theorem setReg_out (s : State) (i : RegIdx) (v : Word) : (s.setReg i v).out = s.out := rfl
@[simp] theorem setReg_capacity (s : State) (i : RegIdx) (v : Word) : (s.setReg i v).capacity = s.capacity := rfl

/-! ### `pc <- pc + 1` writes `pc` only (R104). -/

@[simp] theorem advance_reg (s : State) (j : RegIdx) : (advance s).reg j = s.reg j := rfl
@[simp] theorem advance_regs (s : State) : (advance s).regs = s.regs := rfl
@[simp] theorem advance_pc (s : State) : (advance s).pc = BitVec.ofNat 32 (s.pc.toNat + 1) := rfl
@[simp] theorem advance_run (s : State) : (advance s).run = s.run := rfl
@[simp] theorem advance_fcause (s : State) : (advance s).fcause = s.fcause := rfl
@[simp] theorem advance_finfo (s : State) : (advance s).finfo = s.finfo := rfl
@[simp] theorem advance_mem (s : State) : (advance s).mem = s.mem := rfl
@[simp] theorem advance_free (s : State) : (advance s).free = s.free := rfl
@[simp] theorem advance_nextHandle (s : State) : (advance s).nextHandle = s.nextHandle := rfl
@[simp] theorem advance_input (s : State) : (advance s).input = s.input := rfl
@[simp] theorem advance_inputEnd (s : State) : (advance s).inputEnd = s.inputEnd := rfl
@[simp] theorem advance_out (s : State) : (advance s).out = s.out := rfl
@[simp] theorem advance_capacity (s : State) : (advance s).capacity = s.capacity := rfl

/-! ### `SegReleaseAll` writes the segment table only (R39). -/

@[simp] theorem releaseAll_reg (s : State) (j : RegIdx) : (releaseAll s).reg j = s.reg j := rfl
@[simp] theorem releaseAll_regs (s : State) : (releaseAll s).regs = s.regs := rfl
@[simp] theorem releaseAll_pc (s : State) : (releaseAll s).pc = s.pc := rfl
@[simp] theorem releaseAll_run (s : State) : (releaseAll s).run = s.run := rfl
@[simp] theorem releaseAll_fcause (s : State) : (releaseAll s).fcause = s.fcause := rfl
@[simp] theorem releaseAll_finfo (s : State) : (releaseAll s).finfo = s.finfo := rfl
@[simp] theorem releaseAll_mem (s : State) : (releaseAll s).mem = [] := rfl
@[simp] theorem releaseAll_free (s : State) : (releaseAll s).free = s.free := rfl
@[simp] theorem releaseAll_nextHandle (s : State) : (releaseAll s).nextHandle = s.nextHandle := rfl
@[simp] theorem releaseAll_input (s : State) : (releaseAll s).input = s.input := rfl
@[simp] theorem releaseAll_inputEnd (s : State) : (releaseAll s).inputEnd = s.inputEnd := rfl
@[simp] theorem releaseAll_out (s : State) : (releaseAll s).out = s.out := rfl
@[simp] theorem releaseAll_capacity (s : State) : (releaseAll s).capacity = s.capacity := rfl

/-! ### Fault entry (R210). -/

@[simp] theorem enterFault_reg (r : Raise) (s : State) (j : RegIdx) : (enterFault r s).reg j = s.reg j := rfl
@[simp] theorem enterFault_regs (r : Raise) (s : State) : (enterFault r s).regs = s.regs := rfl
@[simp] theorem enterFault_pc (r : Raise) (s : State) : (enterFault r s).pc = s.pc := rfl
@[simp] theorem enterFault_run (r : Raise) (s : State) : (enterFault r s).run = .faulted := rfl
@[simp] theorem enterFault_fcause (r : Raise) (s : State) : (enterFault r s).fcause = r.cause.code := rfl
@[simp] theorem enterFault_finfo (r : Raise) (s : State) : (enterFault r s).finfo = r.info := rfl
@[simp] theorem enterFault_mem (r : Raise) (s : State) : (enterFault r s).mem = [] := rfl
@[simp] theorem enterFault_free (r : Raise) (s : State) : (enterFault r s).free = s.free := rfl
@[simp] theorem enterFault_nextHandle (r : Raise) (s : State) : (enterFault r s).nextHandle = s.nextHandle := rfl
@[simp] theorem enterFault_input (r : Raise) (s : State) : (enterFault r s).input = s.input := rfl
@[simp] theorem enterFault_inputEnd (r : Raise) (s : State) : (enterFault r s).inputEnd = s.inputEnd := rfl
@[simp] theorem enterFault_out (r : Raise) (s : State) : (enterFault r s).out = s.out := rfl
@[simp] theorem enterFault_capacity (r : Raise) (s : State) : (enterFault r s).capacity = s.capacity := rfl

/-! ### `Out(b)` writes the output stream only (R42). -/

@[simp] theorem putOutput_reg (s : State) (b : Byte) (j : RegIdx) : (putOutput s b).reg j = s.reg j := rfl
@[simp] theorem putOutput_regs (s : State) (b : Byte) : (putOutput s b).regs = s.regs := rfl
@[simp] theorem putOutput_pc (s : State) (b : Byte) : (putOutput s b).pc = s.pc := rfl
@[simp] theorem putOutput_run (s : State) (b : Byte) : (putOutput s b).run = s.run := rfl
@[simp] theorem putOutput_fcause (s : State) (b : Byte) : (putOutput s b).fcause = s.fcause := rfl
@[simp] theorem putOutput_finfo (s : State) (b : Byte) : (putOutput s b).finfo = s.finfo := rfl
@[simp] theorem putOutput_mem (s : State) (b : Byte) : (putOutput s b).mem = s.mem := rfl
@[simp] theorem putOutput_free (s : State) (b : Byte) : (putOutput s b).free = s.free := rfl
@[simp] theorem putOutput_nextHandle (s : State) (b : Byte) : (putOutput s b).nextHandle = s.nextHandle := rfl
@[simp] theorem putOutput_input (s : State) (b : Byte) : (putOutput s b).input = s.input := rfl
@[simp] theorem putOutput_inputEnd (s : State) (b : Byte) : (putOutput s b).inputEnd = s.inputEnd := rfl
@[simp] theorem putOutput_out (s : State) (b : Byte) : (putOutput s b).out = s.out ++ [b] := rfl
@[simp] theorem putOutput_capacity (s : State) (b : Byte) : (putOutput s b).capacity = s.capacity := rfl

/-! ### The environment presents `end` (R41). -/

@[simp] theorem presentEnd_reg (s : State) (j : RegIdx) : (presentEnd s).reg j = s.reg j := rfl
@[simp] theorem presentEnd_regs (s : State) : (presentEnd s).regs = s.regs := rfl
@[simp] theorem presentEnd_pc (s : State) : (presentEnd s).pc = s.pc := rfl
@[simp] theorem presentEnd_run (s : State) : (presentEnd s).run = s.run := rfl
@[simp] theorem presentEnd_fcause (s : State) : (presentEnd s).fcause = s.fcause := rfl
@[simp] theorem presentEnd_finfo (s : State) : (presentEnd s).finfo = s.finfo := rfl
@[simp] theorem presentEnd_mem (s : State) : (presentEnd s).mem = s.mem := rfl
@[simp] theorem presentEnd_free (s : State) : (presentEnd s).free = s.free := rfl
@[simp] theorem presentEnd_nextHandle (s : State) : (presentEnd s).nextHandle = s.nextHandle := rfl
@[simp] theorem presentEnd_input (s : State) : (presentEnd s).input = s.input := rfl
@[simp] theorem presentEnd_inputEnd (s : State) : (presentEnd s).inputEnd = true := rfl
@[simp] theorem presentEnd_out (s : State) : (presentEnd s).out = s.out := rfl
@[simp] theorem presentEnd_capacity (s : State) : (presentEnd s).capacity = s.capacity := rfl

/-! ### Handing out a handle writes `free` or `next` only (R36) -/

@[simp] theorem takeHandle_reg (s : State) (j : RegIdx) : (takeHandle s).reg j = s.reg j := by
  simp only [takeHandle]; split <;> rfl
@[simp] theorem takeHandle_regs (s : State) : (takeHandle s).regs = s.regs := by
  simp only [takeHandle]; split <;> rfl
@[simp] theorem takeHandle_pc (s : State) : (takeHandle s).pc = s.pc := by
  simp only [takeHandle]; split <;> rfl
@[simp] theorem takeHandle_run (s : State) : (takeHandle s).run = s.run := by
  simp only [takeHandle]; split <;> rfl
@[simp] theorem takeHandle_fcause (s : State) : (takeHandle s).fcause = s.fcause := by
  simp only [takeHandle]; split <;> rfl
@[simp] theorem takeHandle_finfo (s : State) : (takeHandle s).finfo = s.finfo := by
  simp only [takeHandle]; split <;> rfl
@[simp] theorem takeHandle_mem (s : State) : (takeHandle s).mem = s.mem := by
  simp only [takeHandle]; split <;> rfl
@[simp] theorem takeHandle_input (s : State) : (takeHandle s).input = s.input := by
  simp only [takeHandle]; split <;> rfl
@[simp] theorem takeHandle_inputEnd (s : State) : (takeHandle s).inputEnd = s.inputEnd := by
  simp only [takeHandle]; split <;> rfl
@[simp] theorem takeHandle_out (s : State) : (takeHandle s).out = s.out := by
  simp only [takeHandle]; split <;> rfl
@[simp] theorem takeHandle_capacity (s : State) : (takeHandle s).capacity = s.capacity := by
  simp only [takeHandle]; split <;> rfl

/-! ### Registers under the record updates the meanings make -/

@[simp] theorem reg_with_mem (s : State) (m : Memory) (j : RegIdx) : State.reg { s with mem := m } j = s.reg j := rfl
@[simp] theorem reg_with_pc (s : State) (p : Word) (j : RegIdx) : State.reg { s with pc := p } j = s.reg j := rfl
@[simp] theorem reg_with_run (s : State) (r : RunState) (j : RegIdx) : State.reg { s with run := r } j = s.reg j := rfl
@[simp] theorem reg_with_input (s : State) (l : List Byte) (j : RegIdx) : State.reg { s with input := l } j = s.reg j := rfl
@[simp] theorem reg_with_mem_pc (s : State) (m : Memory) (p : Word) (j : RegIdx) :
    State.reg { s with mem := m, pc := p } j = s.reg j := rfl
@[simp] theorem reg_with_mem_free (s : State) (m : Memory) (l : List Word) (j : RegIdx) :
    State.reg { s with mem := m, free := l } j = s.reg j := rfl

end Sys2Proof.Machine
end

