-- ==== Sys2Proof/Laws/Memory.lean ====
section
/-! SUPPORT. Lists by rising key, segments and the segment table: what each operation reads after it, and that each keeps
the canonical form (log 6). -/

namespace Sys2Proof.Machine

section Assoc

variable {α : Type}

@[simp] theorem assocGet_nil (k : Nat) : assocGet (α := α) k [] = none := rfl

theorem assocGet_put (k j : Nat) (v : α) (l : List (Nat × α)) :
    assocGet j (assocPut k v l) = if j = k then some v else assocGet j l := by
  induction l with
  | nil => simp [assocPut, assocGet]
  | cons e rest ih =>
    obtain ⟨k', v'⟩ := e
    simp only [assocPut]
    split
    · simp [assocGet]
    · split
      · rename_i h; subst h; simp only [assocGet]; split <;> simp_all
      · simp only [assocGet, ih]
        split
        · rename_i h1 h2 h3; subst h3; simp [Ne.symm h2]
        · rfl

theorem assocGet_del_of_ne {k j : Nat} (h : j ≠ k) (l : List (Nat × α)) :
    assocGet j (assocDel k l) = assocGet j l := by
  induction l with
  | nil => rfl
  | cons e rest ih =>
    obtain ⟨k', v'⟩ := e
    simp only [assocDel]
    split
    · rename_i hk; subst hk; simp [assocGet, h]
    · simp only [assocGet, ih]

theorem assocGet_none_of_lt {k : Nat} {l : List (Nat × α)} (h : ∀ e ∈ l, k < e.1) : assocGet k l = none := by
  induction l with
  | nil => rfl
  | cons e rest ih =>
    obtain ⟨k', v'⟩ := e
    have h1 : k < k' := h (k', v') (by simp)
    simp only [assocGet, Nat.ne_of_lt h1, if_false]
    exact ih (fun e he => h e (by simp [he]))

theorem assocRising_cons {e : Nat × α} {l : List (Nat × α)} :
    assocRising (e :: l) ↔ (∀ x ∈ l, e.1 < x.1) ∧ assocRising l := by
  simp [assocRising, List.pairwise_cons]

theorem assocGet_del_self {k : Nat} {l : List (Nat × α)} (h : assocRising l) : assocGet k (assocDel k l) = none := by
  induction l with
  | nil => rfl
  | cons e rest ih =>
    obtain ⟨k', v'⟩ := e
    obtain ⟨hlt, hr⟩ := assocRising_cons.1 h
    simp only [assocDel]
    split
    · rename_i hk; subst hk; exact assocGet_none_of_lt hlt
    · rename_i hk; simp only [assocGet, hk, if_false]; exact ih hr

theorem mem_assocPut {k : Nat} {v : α} {l : List (Nat × α)} {e : Nat × α} (h : e ∈ assocPut k v l) :
    e = (k, v) ∨ e ∈ l := by
  induction l with
  | nil => simpa [assocPut] using h
  | cons a rest ih =>
    obtain ⟨k', v'⟩ := a
    simp only [assocPut] at h
    split at h
    · simpa using h
    · split at h
      · rcases List.mem_cons.1 h with h | h
        · exact .inl h
        · exact .inr (by simp [h])
      · rcases List.mem_cons.1 h with h | h
        · exact .inr (by simp [h])
        · exact (ih h).imp id (fun h => by simp [h])

theorem mem_assocDel {k : Nat} {l : List (Nat × α)} {e : Nat × α} (h : e ∈ assocDel k l) : e ∈ l := by
  induction l with
  | nil => simp [assocDel] at h
  | cons a rest ih =>
    obtain ⟨k', v'⟩ := a
    simp only [assocDel] at h
    split at h
    · simp [h]
    · rcases List.mem_cons.1 h with h | h
      · simp [h]
      · simp [ih h]

theorem assocPut_rising {k : Nat} {v : α} {l : List (Nat × α)} (h : assocRising l) : assocRising (assocPut k v l) := by
  induction l with
  | nil => simp [assocPut, assocRising]
  | cons a rest ih =>
    obtain ⟨k', v'⟩ := a
    obtain ⟨hlt, hr⟩ := assocRising_cons.1 h
    simp only [assocPut]
    split
    · rename_i hk
      refine assocRising_cons.2 ⟨fun x hx => ?_, h⟩
      rcases List.mem_cons.1 hx with rfl | hx
      · exact hk
      · exact Nat.lt_trans hk (hlt x hx)
    · split
      · rename_i hk; subst hk; exact assocRising_cons.2 ⟨hlt, hr⟩
      · rename_i h1 h2
        refine assocRising_cons.2 ⟨fun x hx => ?_, ih hr⟩
        rcases mem_assocPut hx with rfl | hx
        · show k' < k; omega
        · exact hlt x hx

theorem assocDel_rising {k : Nat} {l : List (Nat × α)} (h : assocRising l) : assocRising (assocDel k l) := by
  induction l with
  | nil => simp [assocDel, assocRising]
  | cons a rest ih =>
    obtain ⟨k', v'⟩ := a
    obtain ⟨hlt, hr⟩ := assocRising_cons.1 h
    simp only [assocDel]
    split
    · exact hr
    · exact assocRising_cons.2 ⟨fun x hx => hlt x (mem_assocDel hx), ih hr⟩

theorem assocGet_mem {k : Nat} {v : α} {l : List (Nat × α)} (h : assocGet k l = some v) : (k, v) ∈ l := by
  induction l with
  | nil => simp at h
  | cons a rest ih =>
    obtain ⟨k', v'⟩ := a
    simp only [assocGet] at h
    split at h
    · rename_i hk; subst hk; simp_all
    · simp [ih h]

theorem assocGet_of_mem {k : Nat} {v : α} {l : List (Nat × α)} (hr : assocRising l) (h : (k, v) ∈ l) :
    assocGet k l = some v := by
  induction l with
  | nil => simp at h
  | cons a rest ih =>
    obtain ⟨k', v'⟩ := a
    obtain ⟨hlt, hr⟩ := assocRising_cons.1 hr
    rcases List.mem_cons.1 h with h | h
    · simp only [Prod.mk.injEq] at h; simp [assocGet, h.1, h.2]
    · have := hlt _ h
      simp only [assocGet, Nat.ne_of_gt this, if_false]; exact ih hr h

/-- Two rising lists that read the same at every key are the same list. -/
theorem assoc_ext {l l' : List (Nat × α)} (h : assocRising l) (h' : assocRising l')
    (heq : ∀ k, assocGet k l = assocGet k l') : l = l' := by
  induction l generalizing l' with
  | nil =>
    cases l' with
    | nil => rfl
    | cons a r => have := heq a.1; simp [assocGet] at this
  | cons a r ih =>
    cases l' with
    | nil => have := heq a.1; simp [assocGet] at this
    | cons b r' =>
      obtain ⟨k, v⟩ := a
      obtain ⟨k', v'⟩ := b
      obtain ⟨hlt, hr⟩ := assocRising_cons.1 h
      obtain ⟨hlt', hr'⟩ := assocRising_cons.1 h'
      have hk : k = k' := by
        rcases Nat.lt_trichotomy k k' with hk | hk | hk
        · have := heq k
          rw [assocGet_none_of_lt (l := (k', v') :: r') (by
            intro e he; rcases List.mem_cons.1 he with rfl | he
            · exact hk
            · exact Nat.lt_trans hk (hlt' e he))] at this
          simp [assocGet] at this
        · exact hk
        · have := heq k'
          rw [assocGet_none_of_lt (l := (k, v) :: r) (by
            intro e he; rcases List.mem_cons.1 he with rfl | he
            · exact hk
            · exact Nat.lt_trans hk (hlt e he))] at this
          simp [assocGet] at this
      subst hk
      have hv : v = v' := by simpa [assocGet] using heq k
      subst hv
      have : r = r' := ih hr hr' (fun j => by
        by_cases hj : j = k
        · subst hj; rw [assocGet_none_of_lt hlt, assocGet_none_of_lt hlt']
        · simpa [assocGet, hj] using heq j)
      rw [this]

end Assoc

/-! ### Segments -/

@[simp] theorem setWord_len (g : Segment) (o v : Word) : (g.setWord o v).len = g.len := rfl
@[simp] theorem zeroed_len (n : Word) : (Segment.zeroed n).len = n := rfl
@[simp] theorem zeroed_word (n o : Word) : (Segment.zeroed n).word o = 0#32 := rfl

theorem segment_wf_iff {g : Segment} :
    g.wf = true ↔ assocRising g.cells ∧ ∀ c ∈ g.cells, c.1 < g.len.toNat ∧ c.2 ≠ 0#32 := by
  simp [Segment.wf]

theorem setWord_word_self {g : Segment} (hg : g.wf = true) (o v : Word) : (g.setWord o v).word o = v := by
  have hr := (segment_wf_iff.1 hg).1
  by_cases hv : v = 0#32
  · simp [Segment.word, Segment.setWord, hv, assocGet_del_self hr]
  · simp [Segment.word, Segment.setWord, hv, assocGet_put]

theorem setWord_word_of_ne (g : Segment) {o o' : Word} (v : Word) (h : o' ≠ o) :
    (g.setWord o v).word o' = g.word o' := by
  have : o'.toNat ≠ o.toNat := fun e => h (BitVec.eq_of_toNat_eq e)
  by_cases hv : v = 0#32
  · simp [Segment.word, Segment.setWord, hv, assocGet_del_of_ne this]
  · simp [Segment.word, Segment.setWord, hv, assocGet_put, this]

theorem zeroed_wf (n : Word) : (Segment.zeroed n).wf = true := by
  simp [Segment.wf, Segment.zeroed, assocRising]

theorem setWord_wf {g : Segment} (hg : g.wf = true) {o : Word} (v : Word) (ho : o.toNat < g.len.toNat) :
    (g.setWord o v).wf = true := by
  obtain ⟨hr, hc⟩ := segment_wf_iff.1 hg
  refine segment_wf_iff.2 ?_
  by_cases hv : v = 0#32
  · simp only [Segment.setWord, hv, if_true]
    exact ⟨assocDel_rising hr, fun c hm => hc c (mem_assocDel hm)⟩
  · simp only [Segment.setWord, hv, if_false]
    refine ⟨assocPut_rising hr, fun c hm => ?_⟩
    rcases mem_assocPut hm with rfl | hm
    · exact ⟨ho, hv⟩
    · exact hc c hm

theorem cellsFrom_bounds (k : Nat) (ws : List Word) :
    ∀ c ∈ cellsFrom k ws, k ≤ c.1 ∧ c.1 < k + ws.length ∧ c.2 ≠ 0#32 := by
  induction ws generalizing k with
  | nil => simp [cellsFrom]
  | cons w ws ih =>
    intro c hc
    simp only [cellsFrom] at hc
    split at hc
    · obtain ⟨h1, h2, h3⟩ := ih (k + 1) c hc
      exact ⟨by omega, by simp only [List.length_cons]; omega, h3⟩
    · rename_i hw
      rcases List.mem_cons.1 hc with rfl | hc
      · simp [hw]
      · obtain ⟨h1, h2, h3⟩ := ih (k + 1) c hc
        exact ⟨by omega, by simp only [List.length_cons]; omega, h3⟩

theorem cellsFrom_rising (k : Nat) (ws : List Word) : assocRising (cellsFrom k ws) := by
  induction ws generalizing k with
  | nil => simp [cellsFrom, assocRising]
  | cons w ws ih =>
    simp only [cellsFrom]
    split
    · exact ih _
    · refine assocRising_cons.2 ⟨fun x hx => ?_, ih _⟩
      have := cellsFrom_bounds (k + 1) ws x hx
      show k < x.1; omega

theorem assocGet_cellsFrom (k j : Nat) (ws : List Word) :
    (assocGet (k + j) (cellsFrom k ws)).getD 0#32 = ws[j]?.getD 0#32 := by
  induction ws generalizing k j with
  | nil => simp [cellsFrom]
  | cons w ws ih =>
    have hrest : assocGet k (cellsFrom (k + 1) ws) = none :=
      assocGet_none_of_lt (fun e he => by have := cellsFrom_bounds (k + 1) ws e he; omega)
    cases j with
    | zero =>
      simp only [cellsFrom, Nat.add_zero]
      split
      · rename_i hw; simp [hrest, hw]
      · simp [assocGet]
    | succ j =>
      have e : k + (j + 1) = (k + 1) + j := by omega
      simp only [cellsFrom]
      split
      · rw [e, ih]; simp
      · simp only [assocGet]
        rw [if_neg (by omega), e, ih]; simp

theorem ofWords_word (ws : List Word) (o : Word) : (Segment.ofWords ws).word o = ws[o.toNat]?.getD 0#32 := by
  have := assocGet_cellsFrom 0 o.toNat ws
  simpa [Segment.word, Segment.ofWords] using this

theorem ofWords_wf {ws : List Word} (h : ws.length ≤ Config.maxSegLen) : (Segment.ofWords ws).wf = true := by
  refine segment_wf_iff.2 ⟨cellsFrom_rising _ _, fun c hc => ?_⟩
  have hb := cellsFrom_bounds 0 ws c hc
  simp only [Segment.ofWords, BitVec.toNat_ofNat, Config.maxSegLen] at *
  rw [Nat.mod_eq_of_lt (by omega)]
  exact ⟨by omega, hb.2.2⟩

/-! ### The segment table -/

theorem memory_wf_iff {m : Memory} :
    Memory.wf m = true ↔ assocRising m ∧ ∀ e ∈ m, e.1 < 2 ^ 32 ∧ e.2.wf = true := by
  simp [Memory.wf]

theorem seg_setSeg (m : Memory) (h h' : Word) (g : Segment) :
    Memory.seg (Memory.setSeg m h g) h' = if h' = h then some g else Memory.seg m h' := by
  simp only [Memory.seg, Memory.setSeg, assocGet_put, BitVec.toNat_inj]

@[simp] theorem seg_setSeg_self (m : Memory) (h : Word) (g : Segment) :
    Memory.seg (Memory.setSeg m h g) h = some g := by simp [seg_setSeg]

theorem seg_setSeg_of_ne (m : Memory) {h h' : Word} (g : Segment) (hne : h' ≠ h) :
    Memory.seg (Memory.setSeg m h g) h' = Memory.seg m h' := by simp [seg_setSeg, hne]

theorem seg_drop_of_ne (m : Memory) {h h' : Word} (hne : h' ≠ h) :
    Memory.seg (Memory.drop m h) h' = Memory.seg m h' :=
  assocGet_del_of_ne (fun e => hne (BitVec.eq_of_toNat_eq e)) m

theorem seg_drop_self {m : Memory} (hm : Memory.wf m = true) (h : Word) : Memory.seg (Memory.drop m h) h = none :=
  assocGet_del_self (memory_wf_iff.1 hm).1

@[simp] theorem seg_nil (h : Word) : Memory.seg [] h = none := rfl
@[simp] theorem live_nil (h : Word) : Memory.live [] h = false := rfl
@[simp] theorem len_nil (h : Word) : Memory.len [] h = none := rfl

theorem live_iff {m : Memory} {h : Word} : Memory.live m h = true ↔ ∃ g, Memory.seg m h = some g := by
  simp [Memory.live, Option.isSome_iff_exists]

theorem live_false_iff {m : Memory} {h : Word} : Memory.live m h = false ↔ Memory.seg m h = none := by
  simp [Memory.live]

theorem len_some_iff {m : Memory} {h n : Word} :
    Memory.len m h = some n ↔ ∃ g, Memory.seg m h = some g ∧ g.len = n := by
  simp [Memory.len]

theorem seg_wf {m : Memory} (hm : Memory.wf m = true) {h : Word} {g : Segment} (hg : Memory.seg m h = some g) :
    g.wf = true :=
  ((memory_wf_iff.1 hm).2 _ (assocGet_mem hg)).2

theorem setSeg_wf {m : Memory} (hm : Memory.wf m = true) (h : Word) {g : Segment} (hg : g.wf = true) :
    Memory.wf (Memory.setSeg m h g) = true := by
  obtain ⟨hr, he⟩ := memory_wf_iff.1 hm
  refine memory_wf_iff.2 ⟨assocPut_rising hr, fun e hmem => ?_⟩
  rcases mem_assocPut hmem with rfl | hmem
  · exact ⟨h.isLt, hg⟩
  · exact he e hmem

theorem drop_wf {m : Memory} (hm : Memory.wf m = true) (h : Word) : Memory.wf (Memory.drop m h) = true := by
  obtain ⟨hr, he⟩ := memory_wf_iff.1 hm
  exact memory_wf_iff.2 ⟨assocDel_rising hr, fun e hmem => he e (mem_assocDel hmem)⟩

theorem nil_wf : Memory.wf [] = true := by decide

/-! ### The checked access -/

theorem memRead_ok_iff {m : Memory} {h o w : Word} :
    memRead m h o = .ok w ↔ ∃ g, Memory.seg m h = some g ∧ o.toNat < g.len.toNat ∧ g.word o = w := by
  simp only [memRead]
  split
  · simp [*]
  · split <;> simp_all

theorem memWrite_ok_iff {m m' : Memory} {h o v : Word} :
    memWrite m h o v = .ok m' ↔
      ∃ g, Memory.seg m h = some g ∧ o.toNat < g.len.toNat ∧ m' = Memory.setSeg m h (g.setWord o v) := by
  simp only [memWrite]
  split
  · simp [*]
  · rename_i g hg
    have hlt : ∀ {a b : Nat}, ¬ a ≤ b ↔ b < a := by omega
    split
    · simp_all
    · rename_i ho
      simp only [hg, Except.ok.injEq, Option.some.injEq]
      exact ⟨fun e => ⟨g, rfl, hlt.1 ho, e.symm⟩, fun ⟨_, e, _, e'⟩ => by subst e; exact e'.symm⟩

theorem memRead_congr {m m' : Memory} {h : Word} (e : Memory.seg m' h = Memory.seg m h) (o : Word) :
    memRead m' h o = memRead m h o := by simp [memRead, e]

theorem memWrite_wf {m m' : Memory} (hm : Memory.wf m = true) {h o v : Word} (e : memWrite m h o v = .ok m') :
    Memory.wf m' = true := by
  obtain ⟨g, hg, ho, rfl⟩ := memWrite_ok_iff.1 e
  exact setSeg_wf hm h (setWord_wf (seg_wf hm hg) v ho)

theorem segLoadProgram_ok_iff {m m' : Memory} {h : Word} :
    segLoadProgram m h = .ok m' ↔ ∃ g, Memory.seg m h = some g ∧ m' = Memory.setSeg m 0#32 g := by
  simp only [segLoadProgram]
  split
  · simp [*]
  · rename_i g hg
    simp only [hg, Except.ok.injEq, Option.some.injEq]
    exact ⟨fun e => ⟨g, rfl, e.symm⟩, fun ⟨_, e, e'⟩ => by subst e; exact e'.symm⟩

theorem segLoadProgram_wf {m m' : Memory} (hm : Memory.wf m = true) {h : Word} (e : segLoadProgram m h = .ok m') :
    Memory.wf m' = true := by
  obtain ⟨g, hg, rfl⟩ := segLoadProgram_ok_iff.1 e
  exact setSeg_wf hm _ (seg_wf hm hg)

theorem live_setSeg (m : Memory) (h h' : Word) (g : Segment) :
    Memory.live (Memory.setSeg m h g) h' = if h' = h then true else Memory.live m h' := by
  simp only [Memory.live, seg_setSeg]; split <;> simp

theorem len_setSeg (m : Memory) (h h' : Word) (g : Segment) :
    Memory.len (Memory.setSeg m h g) h' = if h' = h then some g.len else Memory.len m h' := by
  simp only [Memory.len, seg_setSeg]; split <;> simp

theorem live_drop {m : Memory} (hm : Memory.wf m = true) (h h' : Word) :
    Memory.live (Memory.drop m h) h' = if h' = h then false else Memory.live m h' := by
  split
  · rename_i e; subst e; exact live_false_iff.2 (seg_drop_self hm _)
  · rename_i e; simp [Memory.live, seg_drop_of_ne _ e]

theorem reset_memory_wf : Memory.wf State.reset.mem = true := by decide

end Sys2Proof.Machine
end

