-- ==== Sys2Proof/Laws/Ops.lean ====
section
/-! SUPPORT. What each shared operation can answer, said once, and from these what an instruction can do. Later proofs
cite these lemmas and do not unfold the operations. -/

namespace Sys2Proof.Machine

/-! ### Operands -/

theorem zextImm_toNat (imm : BitVec 25) : (zextImm imm).toNat = imm.toNat := by
  have := imm.isLt
  simp only [zextImm, BitVec.toNat_ofNat]
  exact Nat.mod_eq_of_lt (by omega)

theorem zextByte_toNat (b : Byte) : (zextByte b).toNat = b.toNat := by
  have := b.isLt
  simp only [zextByte, BitVec.toNat_ofNat]
  exact Nat.mod_eq_of_lt (by omega)

theorem allOnes_toNat : allOnes.toNat = 2 ^ 32 - 1 := by decide

theorem lowByte_toNat {v : Word} (h : v.toNat < 256) : (lowByte v).toNat = v.toNat := by
  simp only [lowByte, BitVec.toNat_ofNat]
  omega

theorem addWords_toNat (b c : Word) : (addWords b c).toNat = (b.toNat + c.toNat) % 2 ^ 32 := by
  simp [addWords]

theorem mulWords_toNat (b c : Word) : (mulWords b c).toNat = (b.toNat * c.toNat) % 2 ^ 32 := by
  simp [mulWords]

theorem divWords_toNat (b c : Word) : (divWords b c).toNat = b.toNat / c.toNat := by
  simp only [divWords, BitVec.toNat_ofNat]
  exact Nat.mod_eq_of_lt (Nat.lt_of_le_of_lt (Nat.div_le_self _ _) b.isLt)

theorem advance_pc_toNat {s : State} (h : s.pc.toNat + 1 < 2 ^ 32) : (advance s).pc.toNat = s.pc.toNat + 1 := by
  simp only [advance_pc, BitVec.toNat_ofNat]
  exact Nat.mod_eq_of_lt h

/-! ### The shared operations -/

theorem finish_next_iff {r : Except Raise State} {s t : State} :
    finish r s = .next t ↔ (∃ u, r = .ok u ∧ t = advance u) ∨ (∃ e, r = .error e ∧ t = enterFault e s) := by
  cases r <;> simp [finish, raise, eq_comm]

theorem raise_next_iff {r : Raise} {s t : State} : raise r s = .next t ↔ t = enterFault r s := by
  simp [raise, eq_comm]

theorem segMap_ok_iff {s u : State} {n h : Word} :
    segMap s n = .ok (h, u) ↔ mapRefused s n = false ∧ h = handleToHandOut s ∧
      u = { takeHandle s with mem := Memory.setSeg s.mem h (Segment.zeroed n) } := by
  by_cases hr : mapRefused s n = true
  · simp [segMap, hr]
  · simp only [Bool.not_eq_true] at hr
    simp only [segMap, hr, Bool.false_eq_true, if_false, Except.ok.injEq, Prod.mk.injEq, true_and]
    constructor
    · rintro ⟨rfl, rfl⟩; exact ⟨rfl, rfl⟩
    · rintro ⟨rfl, rfl⟩; exact ⟨rfl, rfl⟩

theorem segUnmap_ok_iff {s u : State} {h : Word} :
    segUnmap s h = .ok u ↔ h ≠ 0#32 ∧ Memory.live s.mem h = true ∧
      u = { s with mem := Memory.drop s.mem h, free := h :: s.free } := by
  by_cases hb : h = 0#32 ∨ Memory.live s.mem h = false
  · simp only [segUnmap, hb, if_true]
    constructor
    · intro e; simp at e
    · rintro ⟨h1, h2, -⟩; rcases hb with hb | hb <;> simp_all
  · simp only [segUnmap, hb, if_false, Except.ok.injEq]
    simp only [not_or, Bool.not_eq_false] at hb
    exact ⟨fun e => ⟨hb.1, hb.2, e.symm⟩, fun e => e.2.2.symm⟩

/-- A Map that is not refused has a handle below 2^32 to hand out. -/
theorem nextHandle_lt_of_not_refused {s : State} {n : Word} (h : mapRefused s n = false) (hf : s.free = []) :
    s.nextHandle < 2 ^ 32 := by
  simp only [mapRefused, hf, List.isEmpty_nil, Bool.true_and, Bool.or_eq_false_iff, decide_eq_false_iff_not] at h
  omega

/-- With an empty pool, the handle handed out is `next` itself. -/
theorem handleToHandOut_toNat {s : State} {n : Word} (hr : mapRefused s n = false) (hf : s.free = []) :
    (handleToHandOut s).toNat = s.nextHandle := by
  have := nextHandle_lt_of_not_refused hr hf
  simp only [handleToHandOut, hf, BitVec.toNat_ofNat]
  exact Nat.mod_eq_of_lt this

theorem one_le_toNat {h : Word} (h0 : h ≠ 0#32) : 1 ≤ h.toNat := by
  rcases Nat.eq_zero_or_pos h.toNat with e | e
  · exact absurd (BitVec.eq_of_toNat_eq (by simpa using e)) h0
  · exact e

theorem segMap_wf {s u : State} {n h : Word} (hm : Memory.wf s.mem = true) (e : segMap s n = .ok (h, u)) :
    Memory.wf u.mem = true := by
  obtain ⟨-, -, rfl⟩ := segMap_ok_iff.1 e
  exact setSeg_wf hm h (zeroed_wf n)

theorem segUnmap_wf {s u : State} {h : Word} (hm : Memory.wf s.mem = true) (e : segUnmap s h = .ok u) :
    Memory.wf u.mem = true := by
  obtain ⟨-, -, rfl⟩ := segUnmap_ok_iff.1 e
  exact drop_wf hm h

theorem code_ne_zero (c : Cause) : c.code ≠ 0#3 := by cases c <;> decide

/-- Equal memory is kept memory. -/
theorem keepsMemory_of_eq {s t : State} (h : t.mem = s.mem) : KeepsMemory s t := by simp [KeepsMemory, h]

theorem advanced_of_pc {s t : State} (h : t.pc = (advance s).pc) : Advanced s t :=
  fun hlt => by rw [h]; exact advance_pc_toNat hlt

theorem fetch_word_iff {s : State} {w : Word} : fetch s = .word w ↔ memRead s.mem 0#32 s.pc = .ok w := by
  simp only [fetch, memRead]
  split
  · simp
  · split <;> simp

theorem fetch_outside_iff {s : State} :
    fetch s = .outside ↔ ∃ n, Memory.len s.mem 0#32 = some n ∧ n.toNat ≤ s.pc.toNat := by
  simp only [fetch, Memory.len]
  split
  · simp [*]
  · split <;> simp_all

theorem fetch_noProgram_iff {s : State} : fetch s = .noProgram ↔ Memory.live s.mem 0#32 = false := by
  simp only [fetch, live_false_iff]
  split
  · simp [*]
  · split <;> simp_all

/-! ### What an instruction can do -/

/-- Everything `exec i s = .next t` can mean, one constructor per way an instruction ends in a next state. -/
inductive ExecEffect : Instr → State → State → Prop
  /-- The instruction took a fault. -/
  | fault {i s} (r : Raise) (h : r.cause.code ∈ causesOf i) : ExecEffect i s (enterFault r s)
  /-- The instruction wrote one register. -/
  | wrote {i s} (a : RegIdx) (v : Word) (h : writtenRegister i = some a) : ExecEffect i s (advance (s.setReg a v))
  /-- A Conditional move whose condition does not hold. -/
  | skipped {s} (a b c : RegIdx) : ExecEffect (.cmov a b c) s (advance s)
  | stored {s} (a b c : RegIdx) (m : Memory) (h : memWrite s.mem (s.reg a) (s.reg b) (s.reg c) = .ok m) :
      ExecEffect (.sstore a b c) s (advance { s with mem := m })
  | halted {s} : ExecEffect .halt s (releaseAll (advance { s with run := .halted }))
  | mapped {s} (b c : RegIdx) (h : mapRefused s (s.reg c) = false) :
      ExecEffect (.map b c) s (advance
        (State.setReg { takeHandle s with
          mem := Memory.setSeg s.mem (handleToHandOut s) (Segment.zeroed (s.reg c)) } b (handleToHandOut s)))
  | unmapped {s} (c : RegIdx) (h0 : s.reg c ≠ 0#32) (hl : Memory.live s.mem (s.reg c) = true) :
      ExecEffect (.unmap c) s (advance { s with mem := Memory.drop s.mem (s.reg c), free := s.reg c :: s.free })
  | emitted {s} (c : RegIdx) (h : (s.reg c).toNat < 256) :
      ExecEffect (.out c) s (advance (putOutput s (lowByte (s.reg c))))
  | took {s} (c : RegIdx) (b : Byte) (rest : List Byte) (h : s.input = b :: rest) :
      ExecEffect (.inp c) s (advance (State.setReg { s with input := rest } c (zextByte b)))
  /-- An Input that finds nothing presented: the state is the state before. -/
  | waited {s} (c : RegIdx) (h : s.input = []) (he : s.inputEnd = false) : ExecEffect (.inp c) s s
  | jumped {s} (b c : RegIdx) (g : Segment) (h : s.reg b = 0#32) (hg : Memory.seg s.mem 0#32 = some g)
      (ht : (s.reg c).toNat < g.len.toNat) : ExecEffect (.loadp b c) s { s with pc := s.reg c }
  | replaced {s} (b c : RegIdx) (g : Segment) (h : s.reg b ≠ 0#32) (hg : Memory.seg s.mem (s.reg b) = some g)
      (ht : (s.reg c).toNat < g.len.toNat) :
      ExecEffect (.loadp b c) s { s with mem := Memory.setSeg s.mem 0#32 g, pc := s.reg c }

/-- The inversion lemma of `exec`: an answer `next t` is one of the ways above. -/
theorem exec_effect {i : Instr} {s t : State} (h : exec i s = .next t) : ExecEffect i s t := by
  cases i with
  | cmov a b c =>
    simp only [exec, execCmov, Host.Outcome.next.injEq] at h; subst h
    split
    · exact .wrote a _ rfl
    · exact .skipped a b c
  | sload a b c =>
    simp only [exec, execSload, finish_next_iff] at h
    rcases h with ⟨u, hu, rfl⟩ | ⟨e, he, rfl⟩
    · cases hr : memRead s.mem (s.reg b) (s.reg c) with
      | error e => simp [hr, Except.map] at hu
      | ok v => simp only [hr, Except.map, Except.ok.injEq] at hu; subst hu; exact .wrote a _ rfl
    · refine .fault e ?_
      simp only [memRead] at he
      split at he
      · simp only [Except.map, Except.error.injEq] at he; subst he; simp [Cause.code, causesOf]
      · split at he
        · simp only [Except.map, Except.error.injEq] at he; subst he; simp [Cause.code, causesOf]
        · simp [Except.map] at he
  | sstore a b c =>
    simp only [exec, execSstore, finish_next_iff] at h
    rcases h with ⟨u, hu, rfl⟩ | ⟨e, he, rfl⟩
    · cases hr : memWrite s.mem (s.reg a) (s.reg b) (s.reg c) with
      | error e => simp [hr, Except.map] at hu
      | ok m => simp only [hr, Except.map, Except.ok.injEq] at hu; subst hu; exact .stored a b c m hr
    · refine .fault e ?_
      simp only [memWrite] at he
      split at he
      · simp only [Except.map, Except.error.injEq] at he; subst he; simp [Cause.code, causesOf]
      · split at he
        · simp only [Except.map, Except.error.injEq] at he; subst he; simp [Cause.code, causesOf]
        · simp [Except.map] at he
  | add a b c => simp only [exec, execAdd, Host.Outcome.next.injEq] at h; subst h; exact .wrote a _ rfl
  | mul a b c => simp only [exec, execMul, Host.Outcome.next.injEq] at h; subst h; exact .wrote a _ rfl
  | div a b c =>
    simp only [exec, execDiv] at h
    split at h
    · rw [raise_next_iff] at h; subst h; exact .fault _ (by simp [Cause.code, causesOf])
    · simp only [Host.Outcome.next.injEq] at h; subst h; exact .wrote a _ rfl
  | nand a b c => simp only [exec, execNand, Host.Outcome.next.injEq] at h; subst h; exact .wrote a _ rfl
  | halt => simp only [exec, execHalt, Host.Outcome.next.injEq] at h; subst h; exact .halted
  | map b c =>
    simp only [exec, execMap, finish_next_iff] at h
    cases hr : segMap s (s.reg c) with
    | error e =>
      rcases h with ⟨u, hu, rfl⟩ | ⟨e', he, rfl⟩
      · simp [hr, Except.map] at hu
      · refine .fault e' ?_
        simp only [hr, Except.map, Except.error.injEq] at he; subst he
        simp only [segMap] at hr
        split at hr
        · simp only [Except.error.injEq] at hr; subst hr; simp [Cause.code, causesOf]
        · simp at hr
    | ok p =>
      obtain ⟨hd, u⟩ := p
      obtain ⟨hn, rfl, rfl⟩ := segMap_ok_iff.1 hr
      rcases h with ⟨u, hu, rfl⟩ | ⟨e', he, rfl⟩
      · simp only [hr, Except.map, Except.ok.injEq] at hu; subst hu; exact .mapped b c hn
      · simp [hr, Except.map] at he
  | unmap c =>
    simp only [exec, execUnmap, finish_next_iff] at h
    rcases h with ⟨u, hu, rfl⟩ | ⟨e, he, rfl⟩
    · obtain ⟨h0, hl, rfl⟩ := segUnmap_ok_iff.1 hu; exact .unmapped c h0 hl
    · refine .fault e ?_
      simp only [segUnmap] at he
      split at he
      · simp only [Except.error.injEq] at he; subst he; simp [Cause.code, causesOf]
      · simp at he
  | out c =>
    simp only [exec, execOut] at h
    split at h
    · rw [raise_next_iff] at h; subst h; exact .fault _ (by simp [Cause.code, causesOf])
    · simp only [Host.Outcome.next.injEq] at h; subst h; exact .emitted c (by omega)
  | inp c =>
    simp only [exec, execInp, takeInput] at h
    cases hi : s.input with
    | cons b rest =>
      simp only [hi, Host.Outcome.next.injEq] at h; subst h; exact .took c b rest hi
    | nil =>
      cases he : s.inputEnd with
      | true => simp only [hi, he, if_true, Host.Outcome.next.injEq] at h; subst h; exact .wrote c _ rfl
      | false =>
        simp only [hi, he, Bool.false_eq_true, if_false, Host.Outcome.next.injEq] at h; subst h
        exact .waited c hi he
  | loadp b c =>
    simp only [exec, execLoadp] at h
    split at h
    · split at h
      · simp at h
      · rw [raise_next_iff] at h; subst h; exact .fault _ (by simp [Cause.code, causesOf])
    · rename_i n hn
      obtain ⟨g, hg, rfl⟩ := len_some_iff.1 hn
      split at h
      · rw [raise_next_iff] at h; subst h; exact .fault _ (by simp [Cause.code, causesOf])
      · simp only [jumpInto] at h
        split at h
        · rename_i ht h0
          simp only [Host.Outcome.next.injEq] at h; subst h
          exact .jumped b c g h0 (h0 ▸ hg) (by omega)
        · rename_i ht h0
          simp only [segLoadProgram, hg, Host.Outcome.next.injEq] at h; subst h
          exact .replaced b c g h0 hg (by omega)
  | lv a imm => simp only [exec, execLv, Host.Outcome.next.injEq] at h; subst h; exact .wrote a _ rfl
  | illegal14 low =>
    simp only [exec, execIllegal14, raise_next_iff] at h; subst h; exact .fault _ (by simp [Cause.code, causesOf])
  | illegal15 low =>
    simp only [exec, execIllegal15, raise_next_iff] at h; subst h; exact .fault _ (by simp [Cause.code, causesOf])

/-- Everything `step s = .next t` can mean: a terminal state stays, a fetch past the end takes its fault, and otherwise
the fetched instruction has its effect. -/
theorem step_cases {s t : State} (h : step s = .next t) :
    (s.run ≠ .running ∧ t = s) ∨
    (s.run = .running ∧ fetch s = .outside ∧ t = enterFault { cause := .invalidProgramCounter, info := s.pc } s) ∨
    (∃ w, s.run = .running ∧ memRead s.mem 0#32 s.pc = .ok w ∧ exec (decode w) s = .next t) := by
  simp only [step] at h
  split at h
  · rename_i hr
    split at h
    · rename_i w hw; exact .inr (.inr ⟨w, hr, fetch_word_iff.1 hw, h⟩)
    · rename_i ho; exact .inr (.inl ⟨hr, ho, raise_next_iff.1 h⟩)
    · simp at h
  · rename_i hr; simp only [Host.Outcome.next.injEq] at h; exact .inl ⟨by simp [hr], h.symm⟩
  · rename_i hr; simp only [Host.Outcome.next.injEq] at h; exact .inl ⟨by simp [hr], h.symm⟩

/-! ### Reset and loading -/

/-- Everything a reset with a program can mean (R44, R230), and when there is one (R232). -/
theorem launch_eq_some_iff {program : List Word} {input : List Byte} {e : Bool} {cap : Capacity} {s : State} :
    launch program input e cap = some s ↔ program.length ≤ Config.maxSegLen ∧
      s = { State.reset with
        mem := [(0, Segment.ofWords program)], input := input, inputEnd := e, capacity := cap } := by
  simp only [launch, programFits, decide_eq_true_eq, Option.ite_none_right_eq_some, Option.some.injEq]
  exact and_congr_right fun _ => eq_comm

/-- A reset with a program has canonical memory. -/
theorem launch_wf {program : List Word} {input : List Byte} {e : Bool} {cap : Capacity} {s : State}
    (h : launch program input e cap = some s) : Memory.wf s.mem = true := by
  obtain ⟨hl, rfl⟩ := launch_eq_some_iff.1 h
  refine memory_wf_iff.2 ⟨by simp [assocRising], fun m hm => ?_⟩
  simp only [List.mem_singleton] at hm; subst hm
  exact ⟨by simp, ofWords_wf hl⟩

/-- An image of `n` whole Words gives `n` Words (R231). -/
theorem imageWords_of_length : ∀ (n : Nat) (image : List Byte), image.length = 4 * n →
    ∃ ws, imageWords image = some ws ∧ ws.length = n
  | 0, [], _ => ⟨[], rfl, rfl⟩
  | n + 1, b0 :: b1 :: b2 :: b3 :: rest, h => by
    obtain ⟨ws, hw, hl⟩ := imageWords_of_length n rest (by simp at h; omega)
    exact ⟨wordOfBytes b0 b1 b2 b3 :: ws, by simp [imageWords, hw], by simp [hl]⟩
  | n + 1, [], h => by simp at h
  | n + 1, [_], h => by simp at h; omega
  | n + 1, [_, _], h => by simp at h; omega
  | n + 1, [_, _, _], h => by simp at h; omega

/-- Loading a whole image within the limit is the reset with its Words (R231, R232). -/
theorem loadImage_of_wf {image : List Byte} (h : imageWf image = true) (input : List Byte) (e : Bool) (cap : Capacity) :
    ∃ ws, imageWords image = some ws ∧ ws.length = image.length / 4 ∧
      loadImage image input e cap = launch ws input e cap := by
  have hw := h
  simp only [imageWf, imageWholeWords, Bool.and_eq_true, decide_eq_true_eq] at hw
  obtain ⟨ws, hi, hl⟩ := imageWords_of_length (image.length / 4) image (by omega)
  exact ⟨ws, hi, hl, by simp [loadImage, h, hi]⟩

/-! ### Runs -/

theorem run_zero (s : State) : Host.Core.run Sys2Proof.core 0 s = .next s := rfl

/-- A step, then the rest of the run. -/
theorem run_succ_of_step {s t : State} (k : Nat) (h : step s = .next t) :
    Host.Core.run Sys2Proof.core (k + 1) s = Host.Core.run Sys2Proof.core k t := by
  have hc : Sys2Proof.core.step s = .next t := h
  simp only [Host.Core.run, hc]

/-- A run of one step and more that answers a next state began with a step that did. -/
theorem step_of_run_succ {s t : State} {k : Nat} (h : Host.Core.run Sys2Proof.core (k + 1) s = .next t) :
    ∃ u, step s = .next u ∧ Host.Core.run Sys2Proof.core k u = .next t := by
  cases hs : step s with
  | next u => exact ⟨u, rfl, run_succ_of_step k hs ▸ h⟩
  | fault r =>
    have hc : Sys2Proof.core.step s = .fault r := hs
    simp [Host.Core.run, hc] at h
  | refused r =>
    have hc : Sys2Proof.core.step s = .refused r := hs
    simp [Host.Core.run, hc] at h

end Sys2Proof.Machine
end

