-- ==== Sys2Proof/Laws/PerInstr.lean ====
section
/-! SUPPORT. Per-instruction laws about the instructions as syntax: the opcode stands in bits 31:28 of the canonical Word
(spec/30_encoding.md R82, R93). -/

namespace Sys2Proof.Laws.EncodedOpcode

/-- The top four bits of the canonical Word are the instruction's opcode. -/
def Statement (i : Instr) : Prop := opcodeOf (encode i) = i.opcode

/-- Three-register Words: nothing of the fields reaches bit 28. -/
theorem opcode_encode3 {op a b c : Nat} (ho : op < 16) (ha : a < 8) (hb : b < 8) (hc : c < 8) :
    opcodeOf (BitVec.ofNat 32 (encode3 op a b c)) = op := by
  simp only [opcodeOf, bitField, encode3, BitVec.toNat_ofNat, Nat.shiftRight_eq_div_pow]
  omega

theorem cmov (a b c : RegIdx) : Statement (.cmov a b c) := opcode_encode3 (by decide) a.isLt b.isLt c.isLt
theorem sload (a b c : RegIdx) : Statement (.sload a b c) := opcode_encode3 (by decide) a.isLt b.isLt c.isLt
theorem sstore (a b c : RegIdx) : Statement (.sstore a b c) := opcode_encode3 (by decide) a.isLt b.isLt c.isLt
theorem add (a b c : RegIdx) : Statement (.add a b c) := opcode_encode3 (by decide) a.isLt b.isLt c.isLt
theorem mul (a b c : RegIdx) : Statement (.mul a b c) := opcode_encode3 (by decide) a.isLt b.isLt c.isLt
theorem div (a b c : RegIdx) : Statement (.div a b c) := opcode_encode3 (by decide) a.isLt b.isLt c.isLt
theorem nand (a b c : RegIdx) : Statement (.nand a b c) := opcode_encode3 (by decide) a.isLt b.isLt c.isLt
theorem halt : Statement .halt := opcode_encode3 (by decide) (by decide) (by decide) (by decide)
theorem map (b c : RegIdx) : Statement (.map b c) := opcode_encode3 (by decide) (by decide) b.isLt c.isLt
theorem unmap (c : RegIdx) : Statement (.unmap c) := opcode_encode3 (by decide) (by decide) (by decide) c.isLt
theorem out (c : RegIdx) : Statement (.out c) := opcode_encode3 (by decide) (by decide) (by decide) c.isLt
theorem inp (c : RegIdx) : Statement (.inp c) := opcode_encode3 (by decide) (by decide) (by decide) c.isLt
theorem loadp (b c : RegIdx) : Statement (.loadp b c) := opcode_encode3 (by decide) (by decide) b.isLt c.isLt

theorem lv (a : RegIdx) (imm : BitVec 25) : Statement (.lv a imm) := by
  have ha := a.isLt
  have hi := imm.isLt
  simp only [Statement, Instr.opcode, encode, opcodeOf, bitField, encodeLv, BitVec.toNat_ofNat,
    Nat.shiftRight_eq_div_pow]
  omega

theorem illegal14 (low : BitVec 28) : Statement (.illegal14 low) := by
  have hl := low.isLt
  simp only [Statement, Instr.opcode, encode, opcodeOf, bitField, BitVec.toNat_ofNat, Nat.shiftRight_eq_div_pow]
  omega

theorem illegal15 (low : BitVec 28) : Statement (.illegal15 low) := by
  have hl := low.isLt
  simp only [Statement, Instr.opcode, encode, opcodeOf, bitField, BitVec.toNat_ofNat, Nat.shiftRight_eq_div_pow]
  omega

end Sys2Proof.Laws.EncodedOpcode
end

