-- ==== Sys2Proof/Tests/Slice0.lean ====
section
/-! SUPPORT. The model's own tests: small facts whose expected results are those of spec/95_test_vectors.md (the vector's
name stands in each comment) or are worked out by hand from the rule named, and a witness for every statement that has
hypotheses. -/

namespace Sys2Proof.Tests

open Sys2Proof.Machine Sys2Proof.Claims

/-! ### Helpers -/

/-- The outcome is a next state with this property. -/
def ends (o : Host.Outcome State Fault Refusal) (p : State → Bool) : Bool :=
  match o with
  | .next t => p t
  | .fault _ => false
  | .refused _ => false

/-- x[1], x[2], x[3] set. -/
def with3 (s : State) (v1 v2 v3 : Word) : State := ((s.setReg 1 v1).setReg 2 v2).setReg 3 v3

/-- The common start of section 2.3: segment 0 of four Words; segment 1 of four Words 0x11, 0x22, 0x33, 0x44; and a live
segment 2 of length 0. The pool is empty and `next` is 3. -/
def bench : State :=
  { State.reset with
    input := [0x41#8, 0xFF#8]
    mem := [(0, Segment.ofWords [0x10000053#32, 0x20000053#32, 0x70000000#32, 0xE0000123#32]),
            (1, Segment.ofWords [0x11#32, 0x22#32, 0x33#32, 0x44#32]), (2, Segment.zeroed 0#32)]
    nextHandle := 3 }

/-- `bench` with nothing more to read at the input port, `end` not yet presented. -/
def waiting : State := { bench with input := [], inputEnd := false }

/-- `bench` with handles 2 and then 1 released (top first). -/
def pooled : State := { bench with mem := [(0, Segment.ofWords [0x80000011#32])], free := [1#32, 2#32] }

/-- A machine with no handle left (R40). -/
def exhausted : State := { bench with nextHandle := 2 ^ 32 }

/-- Whether a state faulted with this code and this information Word. -/
def faultedWith (code : BitVec 3) (info : Word) (t : State) : Bool :=
  decide (t.run = .faulted ∧ t.fcause = code ∧ t.finfo = info ∧ t.mem = [])

/-! ### Well-formedness: each check refuses an ill-formed term -/

theorem test_wf_refuses_register_eight : (Line.three 3 8 0 0).wf = false := by decide
theorem test_wf_refuses_opcode_thirteen_as_three : (Line.three 13 0 0 0).wf = false := by decide
theorem test_wf_refuses_field_of_halt : (Line.three 7 1 0 0).wf = false := by decide
theorem test_wf_refuses_wide_literal : (Line.lv 1 (2 ^ 25)).wf = false := by decide
theorem test_wf_refuses_wide_word : (Line.word (2 ^ 32)).wf = false := by decide
theorem test_wf_accepts_lines :
    (Line.three 3 3 1 2).wf = true ∧ (Line.lv 7 (2 ^ 25 - 1)).wf = true ∧ (Line.word (2 ^ 32 - 1)).wf = true := by decide
theorem test_wf_refuses_ragged_image : imageWf [0xD2#8, 0x00#8, 0x00#8] = false := by decide
theorem test_wf_refuses_long_program : programFits (List.replicate (2 ^ 32) 0#32) = false := by
  rw [programFits, List.length_replicate]; decide
theorem test_wf_refuses_long_image : imageFits (List.replicate (2 ^ 34) 0#8) = false := by
  rw [imageFits, List.length_replicate]; decide
theorem test_image_limit : imageFits [0#8] = true ∧ Config.maxSegLen = 4294967295 := by decide

/-! ### Decoding: section 2.1 of the vectors, one Word and more for each constructor -/

theorem test_decode_cmov : decode 0x00000053#32 = .cmov 1 2 3 ∧ decode 0x0FFFFE00#32 = .cmov 0 0 0 := by decide
theorem test_decode_sload : decode 0x10000053#32 = .sload 1 2 3 := by decide
theorem test_decode_sstore : decode 0x20000053#32 = .sstore 1 2 3 := by decide
theorem test_decode_add : decode 0x300000CA#32 = .add 3 1 2 ∧ decode 0x3FFFFECA#32 = .add 3 1 2 := by decide
theorem test_decode_mul : decode 0x400000CA#32 = .mul 3 1 2 := by decide
theorem test_decode_div : decode 0x500000CA#32 = .div 3 1 2 := by decide
theorem test_decode_nand : decode 0x600000DB#32 = .nand 3 3 3 := by decide
theorem test_decode_halt : decode 0x70000000#32 = .halt ∧ decode 0x7FFFFFFF#32 = .halt := by decide
theorem test_decode_map : decode 0x80000011#32 = .map 2 1 ∧ decode 0x800001D1#32 = .map 2 1 := by decide
theorem test_decode_unmap : decode 0x90000003#32 = .unmap 3 := by decide
theorem test_decode_out : decode 0xA0000003#32 = .out 3 ∧ decode 0xAFFFFFFB#32 = .out 3 := by decide
theorem test_decode_inp : decode 0xB0000001#32 = .inp 1 := by decide
theorem test_decode_loadp : decode 0xC0000006#32 = .loadp 0 6 ∧ decode 0xC0000010#32 = .loadp 2 0 := by decide
theorem test_decode_lv : decode 0xD2000030#32 = .lv 1 48#25 ∧ decode 0xDFFFFFFF#32 = .lv 7 33554431#25 := by decide
theorem test_decode_illegal14 : decode 0xE0000123#32 = .illegal14 0x123#28 := by decide
theorem test_decode_illegal15 : decode 0xFFFFFFFF#32 = .illegal15 0xFFFFFFF#28 := by decide
theorem test_encode_canonical :
    encode (.nand 3 3 3) = 0x600000DB#32 ∧ encode (.lv 7 0#25) = 0xDE000000#32 ∧ encode (.map 2 1) = 0x80000011#32 := by
  decide
theorem test_table_word : decodeTableWord 32 0x300000CA = some (.add 3 1 2) ∧ decodeTableWord 33 0 = none := by decide
/-- The image bytes of section 2.1: `D2 00 00 30 A0 00 00 03`. -/
theorem test_image_words :
    imageWords [0xD2#8, 0#8, 0#8, 0x30#8, 0xA0#8, 0#8, 0#8, 3#8] = some [0xD2000030#32, 0xA0000003#32] := by decide
theorem test_decode_bytes_too_short : decodeBytes [0xD2#8, 0#8] = .error (.fewerThanFourBytes 2) := by decide

/-! ### One step or one instruction each: the vectors of sections 2.2 to 2.10 -/

/-- V3. -/
theorem test_cmov_high_bit_is_true :
    ends (exec (.cmov 1 2 3) (with3 bench 7 9 0x80000000)) (fun t => decide (t.reg 1 = 9 ∧ t.pc = 1)) = true := by decide
/-- V2. -/
theorem test_cmov_zero_keeps :
    ends (exec (.cmov 1 2 3) (with3 bench 7 9 0)) (fun t => decide (t.reg 1 = 7)) = true := by decide
/-- M7: the handle is read before the destination is written. -/
theorem test_sload_over_its_handle :
    ends (exec (.sload 1 1 2) (with3 bench 1 1 0)) (fun t => decide (t.reg 1 = 0x22)) = true := by decide
/-- M5: liveness before bounds. -/
theorem test_sload_dead_handle :
    ends (exec (.sload 3 1 2) (with3 bench 9 99 0)) (faultedWith 3 9) = true := by decide
/-- M9. -/
theorem test_sstore_stores :
    ends (exec (.sstore 1 2 3) (with3 bench 1 0 0xDEADBEEF))
      (fun t => decide (memRead t.mem 1 0 = .ok 0xDEADBEEF ∧ memRead t.mem 1 1 = .ok 0x22)) = true := by decide
/-- M10. -/
theorem test_sstore_out_of_bounds :
    ends (exec (.sstore 1 2 3) (with3 bench 1 4 5)) (faultedWith 4 4) = true := by decide
/-- Section 2.4, row 7. -/
theorem test_add_row : ends (exec (.add 3 1 2) (with3 bench 0x12345678 0x9ABCDEF0 0))
    (fun t => decide (t.reg 3 = 0xACF13568)) = true := by decide
/-- S1. -/
theorem test_add_wraps : ends (exec (.add 3 1 2) (with3 bench 0xFFFFFFFF 1 5)) (fun t => decide (t.reg 3 = 0)) = true := by
  decide
/-- Section 2.4, row 7. -/
theorem test_mul_row : ends (exec (.mul 3 1 2) (with3 bench 0x12345678 0x9ABCDEF0 0))
    (fun t => decide (t.reg 3 = 0x242D2080)) = true := by decide
/-- Section 2.4, row 11: unsigned. -/
theorem test_div_unsigned : ends (exec (.div 3 1 2) (with3 bench 0xFFFFFFFF 2 0))
    (fun t => decide (t.reg 3 = 0x7FFFFFFF)) = true := by decide
/-- Section 2.4, row 2. -/
theorem test_div_by_zero : ends (exec (.div 3 1 2) (with3 bench 1 0 8))
    (fun t => faultedWith 2 1 t && decide (t.reg 3 = 8 ∧ t.pc = 0)) = true := by decide
/-- S5. -/
theorem test_nand_complement : ends (exec (.nand 3 3 3) (with3 bench 0 0 54))
    (fun t => decide (t.reg 3 = 0xFFFFFFC9)) = true := by decide
/-- H2. -/
theorem test_halt : ends (step (State.reset.withFetchWord 32 0x7FFFFFFF))
    (fun t => decide (statusOutput t = (.halted, 0, 0) ∧ t.pc = 1 ∧ t.mem = [])) = true := by decide
/-- A3: the length is read before the register takes the handle. -/
theorem test_map_over_its_length : ends (exec (.map 1 1) (with3 State.reset 3 0 0))
    (fun t => decide (t.reg 1 = 1 ∧ Memory.len t.mem 1 = some 3 ∧ t.nextHandle = 2)) = true := by decide
/-- A10 for the default capacity. -/
theorem test_map_exhausted : ends (exec (.map 2 1) (with3 exhausted 7 0 0))
    (fun t => faultedWith 7 7 t && decide (t.reg 2 = 0)) = true := by decide
/-- The example of R158. -/
theorem test_unmap_pushes : ends (exec (.unmap 3) (with3 bench 0 0 2))
    (fun t => decide (Memory.live t.mem 2 = false ∧ t.free = [2] ∧ t.pc = 1)) = true := by decide
/-- A6. -/
theorem test_unmap_zero : ends (exec (.unmap 1) (with3 bench 0 0 0)) (faultedWith 3 0) = true := by decide
/-- O3. -/
theorem test_out_255 : ends (exec (.out 3) (with3 bench 0 0 255)) (fun t => decide (t.out = [0xFF])) = true := by decide
/-- O4. -/
theorem test_out_256 : ends (exec (.out 3) (with3 bench 0 0 256))
    (fun t => faultedWith 5 256 t && decide (t.out = [])) = true := by decide
/-- I2: 0xFF is data, not the sentinel. -/
theorem test_inp_ff : ends (exec (.inp 1) { bench with input := [0xFF] })
    (fun t => decide (t.reg 1 = 0xFF ∧ t.input = [])) = true := by decide
/-- I4. -/
theorem test_inp_end : ends (exec (.inp 1) State.reset) (fun t => decide (t.reg 1 = 0xFFFFFFFF)) = true := by decide
/-- L6. -/
theorem test_loadp_replaces : ends (exec (.loadp 2 3) (with3 bench 0 1 3))
    (fun t => decide (t.pc = 3 ∧ memRead t.mem 0 3 = .ok 0x44 ∧ memRead t.mem 1 3 = .ok 0x44)) = true := by decide
/-- L11: a program of length 0 has no valid index. -/
theorem test_loadp_empty_segment : ends (exec (.loadp 2 3) (with3 bench 0 2 0)) (faultedWith 6 0) = true := by decide
/-- Section 2.9, row 3. -/
theorem test_lv_greatest : ends (step (State.reset.withFetchWord 32 0xDFFFFFFF))
    (fun t => decide (t.reg 7 = 0x01FFFFFF ∧ t.pc = 1)) = true := by decide
/-- X3's fault. -/
theorem test_illegal14 : ends (step (State.reset.withFetchWord 32 0xE0000123)) (faultedWith 1 0xE0000123) = true := by decide
/-- X4. -/
theorem test_illegal15 : ends (step (State.reset.withFetchWord 32 0xF0000000)) (faultedWith 1 0xF0000000) = true := by decide
/-- X1: an empty program faults at its first step. -/
theorem test_empty_program : ends (step State.reset) (faultedWith 6 0) = true := by decide
/-- Log 7: the one stop of the model. -/
theorem test_missing_program_stops :
    (match step { bench with mem := [] } with | .fault .programSegmentMissing => true | _ => false) = true := by decide
/-- R41, D11: the environment presents a byte to a waiting Input. -/
theorem test_present_byte : presentByte 7 waiting = { waiting with input := [7] } ∧ presentByte 7 bench = bench := by decide

/-! ### Witnesses: a state and operands that meet the hypotheses of each statement, at a boundary where there is one -/

theorem witness_opcodes : opcode 0x0FFFFFFF#32 = 0 ∧ opcode 0x1FFFFFFF#32 = 1 ∧ opcode 0x20000000#32 = 2 ∧
    opcode 0x3FFFFECA#32 = 3 ∧ opcode 0x400000CA#32 = 4 ∧ opcode 0x500000CA#32 = 5 ∧ opcode 0x6FFFFFFF#32 = 6 ∧
    opcode 0x7FFFFFFF#32 = 7 ∧ opcode 0x80000000#32 = 8 ∧ opcode 0x9FFFFFFF#32 = 9 ∧ opcode 0xAFFFFFFB#32 = 10 ∧
    opcode 0xB0000001#32 = 11 ∧ opcode 0xC0000010#32 = 12 ∧ opcode 0xDFFFFFFF#32 = 13 ∧ opcode 0xE0000000#32 = 14 ∧
    opcode 0xFFFFFFFF#32 = 15 := by decide

theorem witness_cmov_condition : (with3 bench 7 9 0x80000000).reg 3 ≠ 0#32 ∧ (with3 bench 7 9 0).reg 3 = 0#32 := by decide
theorem witness_sload_last_offset : Memory.len bench.mem ((with3 bench 1 3 0).reg 1) = some 4#32 ∧
    ((with3 bench 1 3 0).reg 2).toNat < (4#32).toNat := by decide
theorem witness_sload_first_outside : Memory.len bench.mem ((with3 bench 1 4 0).reg 1) = some 4#32 ∧
    (4#32).toNat ≤ ((with3 bench 1 4 0).reg 2).toNat := by decide
theorem witness_sload_dead : Memory.live bench.mem ((with3 bench 3 0 0).reg 1) = false := by decide
theorem witness_sstore_last_offset : Memory.wf (with3 bench 1 3 0).mem = true ∧
    Memory.len (with3 bench 1 3 0).mem ((with3 bench 1 3 0).reg 1) = some 4#32 ∧
    ((with3 bench 1 3 0).reg 2).toNat < (4#32).toNat := by decide
theorem witness_sstore_empty_segment : Memory.wf (with3 bench 2 0 0).mem = true ∧
    Memory.len (with3 bench 2 0 0).mem ((with3 bench 2 0 0).reg 1) = some 0#32 ∧
    (0#32).toNat ≤ ((with3 bench 2 0 0).reg 2).toNat := by decide
theorem witness_sstore_dead : Memory.wf (with3 bench 3 0 0).mem = true ∧
    Memory.live (with3 bench 3 0 0).mem ((with3 bench 3 0 0).reg 1) = false := by decide
theorem witness_div : (with3 bench 1 1 0).reg 2 ≠ 0#32 ∧ (with3 bench 1 0 0).reg 2 = 0#32 := by decide
theorem witness_map_fresh_handle : mapRefused { bench with nextHandle := 2 ^ 32 - 1 } 0xFFFFFFFF#32 = false ∧
    ({ bench with nextHandle := 2 ^ 32 - 1 } : State).free = [] := by decide
theorem witness_map_pooled_handle : mapRefused pooled (pooled.reg 1) = false ∧ pooled.free = 1#32 :: [2#32] := by decide
theorem witness_map_refused : mapRefused exhausted (exhausted.reg 1) = true := by decide
theorem witness_unmap_live : Memory.wf (with3 bench 0 0 1).mem = true ∧ (with3 bench 0 0 1).reg 3 ≠ 0#32 ∧
    Memory.live (with3 bench 0 0 1).mem ((with3 bench 0 0 1).reg 3) = true := by decide
theorem witness_unmap_zero : Memory.wf (with3 bench 0 0 0).mem = true ∧ (with3 bench 0 0 0).reg 3 = 0#32 := by decide
theorem witness_unmap_dead : Memory.wf (with3 bench 0 0 3).mem = true ∧
    Memory.live (with3 bench 0 0 3).mem ((with3 bench 0 0 3).reg 3) = false := by decide
theorem witness_out_boundary : ((with3 bench 0 0 255).reg 3).toNat < 256 ∧ 256 ≤ ((with3 bench 0 0 256).reg 3).toNat := by
  decide
theorem witness_inp_byte : bench.input = 0x41#8 :: [0xFF#8] := by decide
theorem witness_inp_end : State.reset.input = [] ∧ State.reset.inputEnd = true := by decide
theorem witness_inp_waiting : waiting.input = [] ∧ waiting.inputEnd = false := by decide
theorem witness_loadp_jump : (with3 bench 0 0 3).reg 2 = 0#32 ∧ Memory.len (with3 bench 0 0 3).mem 0#32 = some 4#32 ∧
    ((with3 bench 0 0 3).reg 3).toNat < (4#32).toNat := by decide
theorem witness_loadp_replace : (with3 bench 0 1 3).reg 2 ≠ 0#32 ∧
    Memory.len (with3 bench 0 1 3).mem ((with3 bench 0 1 3).reg 2) = some 4#32 ∧
    ((with3 bench 0 1 3).reg 3).toNat < (4#32).toNat := by decide
theorem witness_loadp_dead : (with3 bench 0 3 0).reg 2 ≠ 0#32 ∧
    Memory.live (with3 bench 0 3 0).mem ((with3 bench 0 3 0).reg 2) = false := by decide
theorem witness_loadp_target_outside : Memory.len (with3 bench 0 1 4).mem ((with3 bench 0 1 4).reg 2) = some 4#32 ∧
    (4#32).toNat ≤ ((with3 bench 0 1 4).reg 3).toNat := by decide
theorem witness_illegal : 13 < opcode 0xE0000000#32 ∧ 13 < opcode 0xFFFFFFFF#32 ∧ opcode 0xDFFFFFFF#32 ≤ 13 := by decide
theorem witness_unread_fields : opcode 0x7FFFFFFF#32 = opcode 0x70000000#32 ∧ opcode 0x800001D1#32 = opcode 0x80000011#32 ∧
    rB 0x800001D1#32 = rB 0x80000011#32 ∧ rC 0x800001D1#32 = rC 0x80000011#32 ∧
    opcode 0xAFFFFFFB#32 = opcode 0xA0000003#32 ∧ rC 0xAFFFFFFB#32 = rC 0xA0000003#32 := by decide
theorem witness_loader : imageWf [0xD2#8, 0#8, 0#8, 0x30#8] = true ∧ imageWf [] = true := by decide
theorem witness_assembler : (7 < 8 ∧ 2 ^ 25 - 1 < 2 ^ 25) ∧ assembleLine (.lv 7 (2 ^ 25 - 1)) = some 0xDFFFFFFF#32 := by
  decide
theorem witness_fetches : Fetches bench 0x10000053#32 := ⟨rfl, by decide⟩
theorem witness_fetch_last_word : bench.run = .running ∧ Memory.len bench.mem 0#32 = some 4#32 ∧
    ({ bench with pc := 3#32 } : State).pc.toNat < (4#32).toNat := by decide
theorem witness_fetch_past_end : ({ bench with pc := 4#32 } : State).run = .running ∧
    Memory.len ({ bench with pc := 4#32 } : State).mem 0#32 = some 4#32 ∧
    (4#32).toNat ≤ ({ bench with pc := 4#32 } : State).pc.toNat := by decide
theorem witness_terminal : ({ bench with run := .halted } : State).run ≠ .running ∧
    ({ bench with run := .faulted } : State).run ≠ .running := by decide
theorem witness_program_counter : ∃ t, bench.run = .running ∧ exec (.add 1 2 3) bench = .next t ∧ t.run ≠ .faulted ∧
    (∀ b c, Instr.add 1 2 3 ≠ .loadp b c) ∧ ¬ ((∃ c, Instr.add 1 2 3 = .inp c) ∧ bench.input = [] ∧ bench.inputEnd = false) :=
  ⟨_, rfl, rfl, by decide, fun _ _ e => by simp at e, by simp⟩
theorem witness_program_counter_loadp : ∃ t, bench.run = .running ∧ exec (.loadp 0 1) bench = .next t ∧ t.run ≠ .faulted :=
  ⟨_, rfl, rfl, by decide⟩
theorem witness_faulting_step : ∃ t, ({ bench with pc := 3#32 } : State).run = .running ∧
    step { bench with pc := 3#32 } = .next t ∧ AbnormalEnd t := ⟨_, rfl, rfl, rfl⟩
theorem witness_raised_cause : ∃ t, bench.run = .running ∧ exec (.div 1 2 3) bench = .next t ∧ t.run = .faulted ∧
    t.fcause = 2#3 ∧ 2#3 ∈ causesOf (.div 1 2 3) := ⟨_, rfl, rfl, rfl, rfl, by decide⟩
theorem witness_run_state : ∃ t, step { bench with pc := 2#32 } = .next t ∧ t.run = .halted ∧
    Fetches { bench with pc := 2#32 } 0x70000000#32 ∧ opcode 0x70000000#32 = 7 :=
  ⟨_, rfl, rfl, ⟨rfl, by decide⟩, by decide⟩
theorem witness_run_state_terminal : (∃ t, step { bench with run := .halted } = .next t) ∧
    (∃ t, step { bench with run := .faulted } = .next t) := ⟨⟨_, rfl⟩, ⟨_, rfl⟩⟩
theorem witness_registers_listed : ∃ t, exec (.add 1 2 3) bench = .next t ∧ bench.capacity = .handlesOnly ∧
    (4 : RegIdx) ∉ readRegisters (.add 1 2 3) ∧ writtenRegister (.add 1 2 3) ≠ some 4 := ⟨_, rfl, rfl, by decide, by decide⟩
theorem witness_step : ∃ t, step (bench.withFetchWord 32 0xA0000000) = .next t ∧ t.out = [0#8] ∧
    Host.Core.run Sys2Proof.core 1 (bench.withFetchWord 32 0xA0000000) = .next t := ⟨_, rfl, by decide, rfl⟩
theorem witness_output_fetched : Fetches (bench.withFetchWord 32 0xA0000000) 0xA0000000#32 ∧ opcode 0xA0000000#32 = 10 ∧
    ((bench.withFetchWord 32 0xA0000000).reg (rC 0xA0000000#32)).toNat < 2 ^ 8 := ⟨⟨rfl, by decide⟩, by decide, by decide⟩
theorem witness_input_step : ∃ t, step (bench.withFetchWord 32 0xB0000001) = .next t ∧ t.input = [0xFF#8] :=
  ⟨_, rfl, by decide⟩
theorem witness_placed_word : Memory.wf bench.mem = true ∧ Memory.wf State.reset.mem = true := by decide
theorem witness_liveness : Memory.live bench.mem 3#32 = false ∧ Memory.len bench.mem 1#32 = some 4#32 ∧
    (4#32).toNat ≤ (4#32).toNat ∧ (3#32).toNat < (4#32).toNat := by decide
theorem witness_write : Memory.wf bench.mem = true ∧ (∃ m, memWrite bench.mem 1#32 3#32 0#32 = .ok m) ∧
    memRead bench.mem 1#32 4#32 = .error { cause := .outOfBoundsOffset, info := 4#32 } := ⟨by decide, ⟨_, rfl⟩, by decide⟩
theorem witness_copy : Memory.live bench.mem 3#32 = false ∧ Memory.live bench.mem 1#32 = true ∧
    (∃ m m' m'', segLoadProgram bench.mem 1#32 = .ok m ∧ memWrite m 0#32 0#32 5#32 = .ok m' ∧
      memWrite m 1#32 3#32 5#32 = .ok m'') := ⟨by decide, by decide, _, _, _, rfl, rfl, rfl⟩
/-- The same memory reached in two ways: a Word stored and then cleared again. -/
theorem witness_extensional : ∃ m m', memWrite bench.mem 0#32 0#32 7#32 = .ok m ∧
    memWrite m 0#32 0#32 0x10000053#32 = .ok m' ∧ Memory.wf m' = true ∧ Memory.wf bench.mem = true ∧ m' = bench.mem :=
  ⟨_, _, rfl, rfl, by decide, by decide, by decide⟩
theorem witness_refused : exhausted.free = [] ∧ exhausted.nextHandle = 2 ^ 32 ∧ exhausted.capacity = .handlesOnly ∧
    exhausted.nextHandle ≤ 2 ^ 32 := ⟨rfl, rfl, rfl, Nat.le_refl _⟩
theorem witness_reset_program : [0x70000000#32].length ≤ 2 ^ 32 - 1 ∧
    (∃ s, launch [0x70000000#32] [0x41#8] false (.implementation 0) = some s) := ⟨by decide, _, rfl⟩
/-- The lengths on both sides of the limit of R232. -/
theorem witness_program_limit : (∃ s, launch (List.replicate (2 ^ 32 - 1) 0#32) [] true .handlesOnly = some s) ∧
    launch (List.replicate (2 ^ 32) 0#32) [] true .handlesOnly = none :=
  ⟨⟨_, launch_eq_some_iff.2 ⟨by rw [List.length_replicate], rfl⟩⟩, by rw [launch, if_neg]; rw [test_wf_refuses_long_program]; decide⟩

/-- `bench` has the machine's invariant, whatever its registers: handles 1 and 2 are live, the pool is empty, `next` is
3. -/
theorem witness_invariant (v1 v2 v3 : Word) : Inv (with3 bench v1 v2 v3) where
  memory := by simp only [with3, setReg_mem]; decide
  table := fun _ =>
    { programLive := by simp only [with3, setReg_mem]; decide
      handedOut := fun h h1 h2 => by
        have h2 : h.toNat < 3 := h2
        have : h = 1#32 ∨ h = 2#32 := by
          rcases (by omega : h.toNat = 1 ∨ h.toNat = 2) with e | e
          · exact .inl (BitVec.eq_of_toNat_eq e)
          · exact .inr (BitVec.eq_of_toNat_eq e)
        simp only [with3, setReg_mem, setReg_free]
        rcases this with rfl | rfl <;> decide
      poolOnce := List.nodup_nil
      notYet := fun h h1 => by
        have h1 : 3 ≤ h.toNat := h1
        have h3 : h.toNat ≠ 0 ∧ h.toNat ≠ 1 ∧ h.toNat ≠ 2 := by omega
        refine ⟨live_false_iff.2 ?_, List.not_mem_nil⟩
        simp only [with3, setReg_mem, bench, Memory.seg, assocGet, h3, if_false]
      zeroNotPooled := List.not_mem_nil
      nextPositive := show 1 ≤ 3 by decide
      nextBounded := show 3 ≤ 2 ^ 32 by decide }
  counter := fun _ => ⟨4#32, by simp only [with3, setReg_mem]; decide, Nat.zero_le _⟩
  released := fun h => absurd rfl h
  noCause := fun _ => ⟨rfl, rfl⟩
  someCause := fun h => by simp [with3, bench, State.reset] at h

theorem witness_invariant_step : ∃ t, Inv (with3 bench 1 2 0) ∧ step (with3 bench 1 2 0) = .next t :=
  ⟨_, witness_invariant 1 2 0, rfl⟩

/-- Two live segments released, then three Maps (R156's second half), from a state with the invariant. -/
theorem witness_handles_reused : Inv (with3 bench 1 2 0) ∧ ∃ t u v w x, (with3 bench 1 2 0).run = .running ∧
    (with3 bench 1 2 0).capacity = .handlesOnly ∧ (with3 bench 1 2 0).free = [] ∧ (with3 bench 1 2 0).nextHandle < 2 ^ 32 ∧
    exec (.unmap 1) (with3 bench 1 2 0) = .next t ∧ t.run = .running ∧ exec (.unmap 2) t = .next u ∧ u.run = .running ∧
    exec (.map 4 3) u = .next v ∧ exec (.map 4 3) v = .next w ∧ exec (.map 4 3) w = .next x :=
  ⟨witness_invariant 1 2 0, _, _, _, _, _, rfl, rfl, rfl, by decide, rfl, rfl, rfl, rfl, rfl, rfl, rfl⟩

theorem witness_fresh_maps : ∃ s s1 s2 s3, launch [0#32] [] true .handlesOnly = some s ∧ exec (.map 4 3) s = .next s1 ∧
    exec (.map 4 3) s1 = .next s2 ∧ exec (.map 4 3) s2 = .next s3 := ⟨_, _, _, _, rfl, rfl, rfl, rfl⟩

theorem witness_lengths : ∃ t, Inv (with3 bench 0 1 3) ∧ step (with3 bench 0 1 3) = .next t ∧ (1#32 : Word) ≠ 0#32 ∧
    Memory.len (with3 bench 0 1 3).mem 1#32 = some 4#32 ∧ Memory.len t.mem 1#32 = some 4#32 := by
  refine ⟨_, witness_invariant 0 1 3, rfl, by decide, by decide, ?_⟩
  decide

/-- A machine whose segment 1, of one Word, replaces its program, LOADP r2,r3, of two. -/
def replacing : State :=
  with3 { bench with
    mem := [(0, Segment.ofWords [0xC0000013#32, 0#32]), (1, Segment.ofWords [0x70000000#32])], nextHandle := 2 } 0 1 0

theorem witness_length_of_program_changes : Inv replacing ∧ ∃ t, step replacing = .next t ∧
    Memory.len replacing.mem 0#32 = some 2#32 ∧ Memory.len t.mem 0#32 = some 1#32 := by
  refine ⟨?_, _, rfl, by decide, by decide⟩
  refine ⟨by decide, fun _ => ⟨by decide, ?_, List.nodup_nil, ?_, List.not_mem_nil, show 1 ≤ 2 by decide,
    show 2 ≤ 2 ^ 32 by decide⟩, fun _ => ⟨2#32, by decide, by decide⟩, fun h => absurd rfl h, fun _ => ⟨rfl, rfl⟩,
    fun h => by simp [replacing, with3, bench, State.reset] at h⟩
  · intro h h1 h2
    have h2 : h.toNat < 2 := h2
    have : h = 1#32 := BitVec.eq_of_toNat_eq (by show h.toNat = 1; omega)
    subst this; decide
  · intro h h1
    have h1 : 2 ≤ h.toNat := h1
    have h3 : h.toNat ≠ 0 ∧ h.toNat ≠ 1 := by omega
    refine ⟨live_false_iff.2 ?_, List.not_mem_nil⟩
    simp only [replacing, with3, setReg_mem, Memory.seg, assocGet, h3, if_false]

/-- A program whose second Word is a store into its third (R64). -/
theorem witness_store_then_run : Memory.wf (with3 { bench with pc := 1#32 } 0 2 0x70000000).mem = true ∧
    Fetches (with3 { bench with pc := 1#32 } 0 2 0x70000000) 0x20000053#32 ∧ decode 0x20000053#32 = .sstore 1 2 3 ∧
    (with3 { bench with pc := 1#32 } 0 2 0x70000000).reg 1 = 0#32 ∧
    Memory.len (with3 { bench with pc := 1#32 } 0 2 0x70000000).mem 0#32 = some 4#32 ∧
    ((with3 { bench with pc := 1#32 } 0 2 0x70000000).reg 2).toNat =
      (with3 { bench with pc := 1#32 } 0 2 0x70000000).pc.toNat + 1 ∧
    ((with3 { bench with pc := 1#32 } 0 2 0x70000000).reg 2).toNat < (4#32).toNat :=
  ⟨by decide, ⟨rfl, by decide⟩, by decide, by decide, by decide, by decide, by decide⟩

end Sys2Proof.Tests
end

section
/-! PROOFS. The facts about one step that the statements of spec/10_state.md share: the row and the fields of the fetched
Word, what a step does as an effect of its instruction, and the fault entry as `FaultEntered` says it. -/

namespace Sys2Proof.Machine

open Sys2Proof.Claims

/-! ### The decoder's fields are those of the claims (R81 to R84) -/

theorem opcodeOf_eq_opcode (w : Word) : opcodeOf w = opcode w := by
  have := w.isLt
  simp only [opcodeOf, bitField, opcode, Nat.shiftRight_eq_div_pow]
  omega

theorem fieldC_eq_rC (w : Word) : fieldC w = rC w := by
  simp [fieldC, regField, bitField, rC]

theorem fieldB_eq_rB (w : Word) : fieldB w = rB w := by
  simp [fieldB, regField, bitField, rB, Nat.shiftRight_eq_div_pow]

/-- R82, R87: a Word decodes to an instruction of the row its opcode names. -/
theorem decode_opcode (w : Word) : (decode w).opcode = opcode w := by
  have hlt : opcode w < 16 := by have := w.isLt; simp only [opcode]; omega
  simp only [decode, opcodeOf_eq_opcode]
  interval_cases opcode w <;> rfl

theorem decode_of_opcode_halt {w : Word} (h : opcode w = 7) : decode w = .halt := by
  simp [decode, opcodeOf_eq_opcode, h]

theorem decode_of_opcode_out {w : Word} (h : opcode w = 10) : decode w = .out (rC w) := by
  simp [decode, opcodeOf_eq_opcode, h, fieldC_eq_rC]

theorem decode_of_opcode_inp {w : Word} (h : opcode w = 11) : decode w = .inp (rC w) := by
  simp [decode, opcodeOf_eq_opcode, h, fieldC_eq_rC]

theorem decode_of_opcode_loadp {w : Word} (h : opcode w = 12) : decode w = .loadp (rB w) (rC w) := by
  simp [decode, opcodeOf_eq_opcode, h, fieldB_eq_rB, fieldC_eq_rC]

theorem decode_eq_halt_iff {w : Word} : decode w = .halt ↔ opcode w = 7 :=
  ⟨fun h => by rw [← decode_opcode, h, Instr.opcode], decode_of_opcode_halt⟩

theorem decode_eq_out_iff {w : Word} {c : RegIdx} : decode w = .out c ↔ opcode w = 10 ∧ c = rC w := by
  constructor
  · intro h
    have ho : opcode w = 10 := by rw [← decode_opcode, h, Instr.opcode]
    exact ⟨ho, Instr.out.inj (h.symm.trans (decode_of_opcode_out ho))⟩
  · rintro ⟨ho, rfl⟩; exact decode_of_opcode_out ho

theorem decode_eq_inp_iff {w : Word} {c : RegIdx} : decode w = .inp c ↔ opcode w = 11 ∧ c = rC w := by
  constructor
  · intro h
    have ho : opcode w = 11 := by rw [← decode_opcode, h, Instr.opcode]
    exact ⟨ho, Instr.inp.inj (h.symm.trans (decode_of_opcode_inp ho))⟩
  · rintro ⟨ho, rfl⟩; exact decode_of_opcode_inp ho

theorem decode_eq_loadp_iff {w : Word} {b c : RegIdx} :
    decode w = .loadp b c ↔ opcode w = 12 ∧ b = rB w ∧ c = rC w := by
  constructor
  · intro h
    have ho : opcode w = 12 := by rw [← decode_opcode, h, Instr.opcode]
    exact ⟨ho, Instr.loadp.inj (h.symm.trans (decode_of_opcode_loadp ho))⟩
  · rintro ⟨ho, rfl, rfl⟩; exact decode_of_opcode_loadp ho

/-! ### One step -/

theorem step_of_fetches {s : State} {w : Word} (h : Fetches s w) : step s = exec (decode w) s := by
  obtain ⟨hrun, hread⟩ := h
  simp [step, hrun, fetch_word_iff.2 hread]

/-- `step_cases` with the fetched instruction's effect in place of its execution, and the two terminal cases apart from
the fetch fault. -/
theorem step_effect {s t : State} (h : step s = .next t) :
    (s.run ≠ .running ∧ t = s) ∨ (s.run = .running ∧ ∃ r, t = enterFault r s) ∨
    ∃ w, Fetches s w ∧ ExecEffect (decode w) s t := by
  obtain ⟨hrun, rfl⟩ | ⟨hrun, -, rfl⟩ | ⟨w, hrun, hread, hexec⟩ := step_cases h
  · exact .inl ⟨hrun, rfl⟩
  · exact .inr (.inl ⟨hrun, _, rfl⟩)
  · exact .inr (.inr ⟨w, ⟨hrun, hread⟩, exec_effect hexec⟩)

/-- R210: the model's fault entry is the fault entry of the claims. -/
theorem enterFault_faultEntered (r : Raise) (s : State) : FaultEntered r.cause.code r.info s (enterFault r s) :=
  ⟨rfl, rfl, rfl, fun _ => rfl, fun _ => rfl, rfl, ⟨rfl, rfl⟩, ⟨rfl, rfl⟩, rfl, rfl⟩

end Sys2Proof.Machine
end

section
/-! PROOFS. The run state (spec/10_state.md R27). -/

namespace Sys2Proof.Machine

open Sys2Proof.Claims

/-- R27: HALT halts, a fault faults, and every other instruction keeps the run state. -/
theorem ExecEffect.run_cases {i : Instr} {s t : State} (h : ExecEffect i s t) :
    (i = .halt ∧ t.run = .halted) ∨ (i ≠ .halt ∧ t.run = s.run) ∨ (i ≠ .halt ∧ ∃ r, t = enterFault r s) := by
  cases h with
  | fault r hr => exact .inr (.inr ⟨by rintro rfl; simp [causesOf] at hr, r, rfl⟩)
  | wrote a v ha => exact .inr (.inl ⟨by rintro rfl; simp [writtenRegister] at ha, rfl⟩)
  | halted => exact .inl ⟨rfl, rfl⟩
  | _ => exact .inr (.inl ⟨by simp, by simp⟩)

/-- R27: a step from Running ends in Halted exactly when HALT was fetched. -/
theorem step_halted_iff {s t : State} (h : step s = .next t) (hrun : s.run = .running) :
    t.run = .halted ↔ ∃ w, Fetches s w ∧ opcode w = 7 := by
  constructor
  · intro ht
    obtain ⟨hne, -⟩ | ⟨-, r, rfl⟩ | ⟨w, hw, he⟩ := step_effect h
    · exact absurd hrun hne
    · simp at ht
    · obtain ⟨hi, -⟩ | ⟨-, hkeep⟩ | ⟨-, r, rfl⟩ := he.run_cases
      · exact ⟨w, hw, decode_eq_halt_iff.1 hi⟩
      · simp [hkeep, hrun] at ht
      · simp at ht
  · rintro ⟨w, hw, ho⟩
    rw [step_of_fetches hw, decode_of_opcode_halt ho] at h
    cases h
    rfl

/-- R27, R210: a step from Running ends in Faulted only through a fault entry. -/
theorem step_faulted_entered {s t : State} (h : step s = .next t) (hrun : s.run = .running) (ht : t.run = .faulted) :
    ∃ r, t = enterFault r s := by
  obtain ⟨hne, -⟩ | ⟨-, hr⟩ | ⟨w, -, he⟩ := step_effect h
  · exact absurd hrun hne
  · exact hr
  · obtain ⟨-, hhalt⟩ | ⟨-, hkeep⟩ | ⟨-, hr⟩ := he.run_cases
    · simp [hhalt] at ht
    · simp [hkeep, hrun] at ht
    · exact hr

theorem step_of_terminal {s t : State} (h : step s = .next t) (hrun : s.run ≠ .running) : t = s := by
  obtain ⟨-, rfl⟩ | ⟨hr, -⟩ | ⟨w, ⟨hr, -⟩, -⟩ := step_effect h
  · rfl
  · exact absurd hr hrun
  · exact absurd hr hrun

/-- Settles O30, by the run state each effect of an instruction leaves. -/
theorem runStateTransitions : Obligations.RunStateTransitions := by
  unfold Obligations.RunStateTransitions
  refine ⟨fun s t h => ⟨fun hs => ?_, fun hs => ?_, step_halted_iff h, fun hs ht => ?_⟩, fun _ _ _ _ s h => ?_⟩
  · rw [step_of_terminal h (by simp [hs]), hs]
  · rw [step_of_terminal h (by simp [hs]), hs]
  · obtain ⟨r, rfl⟩ := step_faulted_entered h hs ht
    exact ⟨r.cause.code, r.info, code_ne_zero _, enterFault_faultEntered r s⟩
  · obtain ⟨-, rfl⟩ := launch_eq_some_iff.1 h
    rfl

end Sys2Proof.Machine
end

section
/-! PROOFS. Registers read and written (spec/10_state.md R21). -/

namespace Sys2Proof.Machine

open Sys2Proof.Claims

/-- R21, the column "writes": an effect leaves every other register as it was. -/
theorem ExecEffect.reg_of_not_written {i : Instr} {s t : State} (h : ExecEffect i s t) {r : RegIdx}
    (hr : writtenRegister i ≠ some r) : t.reg r = s.reg r := by
  cases h with
  | wrote a v ha =>
    have hne : r ≠ a := by rintro rfl; exact hr ha
    simp [setReg_reg_of_ne _ _ hne]
  | mapped b c _ =>
    have hne : r ≠ b := by rintro rfl; exact hr rfl
    exact (setReg_reg_of_ne _ _ hne).trans (reg_congr (takeHandle_regs s) r)
  | took c b rest _ =>
    have hne : r ≠ c := by rintro rfl; exact hr rfl
    simp [setReg_reg_of_ne _ _ hne]
  | _ => simp

/-! ### The column "reads": an instruction run with an unread register changed -/

/-- A write where register `r` was changed gives what the write alone gives, but for `r`. -/
theorem setReg_setReg_exists (s : State) (r a : RegIdx) (v u : Word) :
    ∃ v', (s.setReg r v).setReg a u = (s.setReg a u).setReg r v' := by
  by_cases h : a = r
  · subst h; exact ⟨u, by simp [State.setReg]⟩
  · have hne : r.val ≠ a.val := fun e => h (Fin.ext e.symm)
    exact ⟨v, by simp only [State.setReg]; rw [Vector.set_comm _ _ hne]⟩

theorem takeHandle_setReg (s : State) (r : RegIdx) (v : Word) :
    takeHandle (s.setReg r v) = (takeHandle s).setReg r v := by
  simp only [takeHandle, setReg_free]
  split <;> rfl

/-- R40: the default capacity refuses a Map only where no handle is left. -/
theorem mapRefused_handlesOnly {s : State} (hcap : s.capacity = .handlesOnly) (n : Word) :
    mapRefused s n = (s.free.isEmpty && decide (2 ^ 32 ≤ s.nextHandle)) := by
  simp [mapRefused, hcap]

theorem mapRefused_setReg {s : State} (hcap : s.capacity = .handlesOnly) (r : RegIdx) (v n : Word) :
    mapRefused (s.setReg r v) n = mapRefused s n :=
  (mapRefused_handlesOnly (s := s.setReg r v) hcap n).trans (mapRefused_handlesOnly hcap n).symm

theorem segMap_setReg {s : State} (hcap : s.capacity = .handlesOnly) (r : RegIdx) (v n : Word) :
    segMap (s.setReg r v) n = (segMap s n).map fun p => (p.1, p.2.setReg r v) := by
  simp only [segMap, mapRefused_setReg hcap, takeHandle_setReg]
  split <;> rfl

theorem segUnmap_eq_error {s : State} {h : Word} (hb : h = 0#32 ∨ Memory.live s.mem h = false) :
    segUnmap s h = .error { cause := .unmappedSegmentAccess, info := h } := if_pos hb

theorem segUnmap_eq_ok {s : State} {h : Word} (hb : ¬ (h = 0#32 ∨ Memory.live s.mem h = false)) :
    segUnmap s h = .ok { s with mem := Memory.drop s.mem h, free := h :: s.free } := if_neg hb

theorem segUnmap_setReg (s : State) (r : RegIdx) (v h : Word) :
    segUnmap (s.setReg r v) h = (segUnmap s h).map fun u => u.setReg r v := by
  by_cases hb : h = 0#32 ∨ Memory.live s.mem h = false
  · rw [segUnmap_eq_error hb]; exact segUnmap_eq_error (s := s.setReg r v) hb
  · rw [segUnmap_eq_ok hb]; exact segUnmap_eq_ok (s := s.setReg r v) hb

/-- The outcome `o` is the next state `t` with some value in `r`: it differs from `.next t` in `r` alone. -/
def NextButReg (r : RegIdx) (t : State) (o : Host.Outcome State Fault Refusal) : Prop := ∃ v, o = .next (t.setReg r v)

/-- An update that is the same but for `r`, then the program counter. -/
theorem nextButReg_advance {s s' t : State} {r : RegIdx}
    (h : .next (advance s) = (.next t : Host.Outcome State Fault Refusal)) (hs : ∃ v, s' = s.setReg r v) :
    NextButReg r t (.next (advance s')) := by
  obtain ⟨v, rfl⟩ := hs
  cases h
  exact ⟨v, rfl⟩

theorem nextButReg_raise {e : Raise} {s t : State} (h : raise e s = .next t) (r : RegIdx) (v : Word) :
    NextButReg r t (raise e (s.setReg r v)) := by
  cases h
  exact ⟨v, rfl⟩

/-- A shared operation with the same answer, whose state is then updated the same way but for `r`. -/
theorem nextButReg_finish_map {α : Type} {x : Except Raise α} {f f' : α → State} {s t : State} {r : RegIdx} {v : Word}
    (h : finish (x.map f) s = .next t) (hf : ∀ a, ∃ v', f' a = (f a).setReg r v') :
    NextButReg r t (finish (x.map f') (s.setReg r v)) := by
  cases x with
  | error e => exact nextButReg_raise h r v
  | ok a => exact nextButReg_advance h (hf a)

theorem jumpInto_setReg {p q : Word} {s t : State} (r : RegIdx) (v : Word) (h : jumpInto p q s = .next t) :
    NextButReg r t (jumpInto p q (s.setReg r v)) := by
  simp only [jumpInto, setReg_mem] at h ⊢
  split at h
  · rw [if_pos ‹_›]; cases h; exact ⟨v, rfl⟩
  · rw [if_neg ‹_›]
    cases hm : segLoadProgram s.mem p with
    | error e => simp only [hm] at h ⊢; exact nextButReg_raise h r v
    | ok m => simp only [hm] at h ⊢; cases h; exact ⟨v, rfl⟩

theorem execLoadp_setReg {b c r : RegIdx} {s t : State} {v : Word} (h : execLoadp b c s = .next t)
    (hb : (s.setReg r v).reg b = s.reg b) (hc : (s.setReg r v).reg c = s.reg c) :
    NextButReg r t (execLoadp b c (s.setReg r v)) := by
  simp only [execLoadp, hb, hc, setReg_mem] at h ⊢
  cases hl : Memory.len s.mem (s.reg b) with
  | none =>
    simp only [hl] at h ⊢
    split at h
    · cases h
    · rw [if_neg ‹_›]; exact nextButReg_raise h r v
  | some n =>
    simp only [hl] at h ⊢
    split at h
    · rw [if_pos ‹_›]; exact nextButReg_raise h r v
    · rw [if_neg ‹_›]; exact jumpInto_setReg r v h

theorem execInp_of_byte {s : State} {b : Byte} {rest : List Byte} (h : s.input = b :: rest) (c : RegIdx) :
    execInp c s = .next (advance (State.setReg { s with input := rest } c (zextByte b))) := by
  simp [execInp, takeInput, h]

theorem execInp_of_end {s : State} (h : s.input = []) (he : s.inputEnd = true) (c : RegIdx) :
    execInp c s = .next (advance (s.setReg c allOnes)) := by
  simp [execInp, takeInput, h, he]

theorem execInp_of_waiting {s : State} (h : s.input = []) (he : s.inputEnd = false) (c : RegIdx) :
    execInp c s = .next s := by
  simp [execInp, takeInput, h, he]

theorem execInp_setReg {c r : RegIdx} {s t : State} (v : Word) (h : execInp c s = .next t) :
    NextButReg r t (execInp c (s.setReg r v)) := by
  cases hi : s.input with
  | cons b rest =>
    rw [execInp_of_byte hi] at h
    rw [execInp_of_byte (s := s.setReg r v) hi]
    exact nextButReg_advance h (setReg_setReg_exists { s with input := rest } r c v _)
  | nil =>
    cases he : s.inputEnd with
    | true =>
      rw [execInp_of_end hi he] at h
      rw [execInp_of_end (s := s.setReg r v) hi he]
      exact nextButReg_advance h (setReg_setReg_exists s r c v _)
    | false =>
      rw [execInp_of_waiting hi he] at h
      rw [execInp_of_waiting (s := s.setReg r v) hi he]
      cases h
      exact ⟨v, rfl⟩

/-- R21, the column "reads": with the default capacity, a change of an unread register `r` changes `r` alone in what an
instruction answers. -/
theorem exec_setReg_of_not_read {i : Instr} {s t : State} (h : exec i s = .next t) (hcap : s.capacity = .handlesOnly)
    {r : RegIdx} (hr : r ∉ readRegisters i) (v : Word) : NextButReg r t (exec i (s.setReg r v)) := by
  have hread : ∀ j ∈ readRegisters i, (s.setReg r v).reg j = s.reg j := fun j hj =>
    setReg_reg_of_ne s v (by rintro rfl; exact hr hj)
  cases i with
  | add a b c | mul a b c | nand a b c =>
    simp only [readRegisters, List.forall_mem_cons] at hread
    simp only [exec, execAdd, execMul, execNand, hread] at h ⊢
    exact nextButReg_advance h (setReg_setReg_exists ..)
  | lv a imm => exact nextButReg_advance h (setReg_setReg_exists ..)
  | cmov a b c =>
    simp only [readRegisters, List.forall_mem_cons] at hread
    simp only [exec, execCmov, hread] at h ⊢
    split at h
    · rw [if_pos ‹_›]; exact nextButReg_advance h (setReg_setReg_exists ..)
    · rw [if_neg ‹_›]; exact nextButReg_advance h ⟨v, rfl⟩
  | div a b c =>
    simp only [readRegisters, List.forall_mem_cons] at hread
    simp only [exec, execDiv, hread] at h ⊢
    split at h
    · rw [if_pos ‹_›]; exact nextButReg_raise h r v
    · rw [if_neg ‹_›]; exact nextButReg_advance h (setReg_setReg_exists ..)
  | sload a b c =>
    simp only [readRegisters, List.forall_mem_cons] at hread
    simp only [exec, execSload, hread] at h ⊢
    exact nextButReg_finish_map h fun w => setReg_setReg_exists s r a v w
  | sstore a b c =>
    simp only [readRegisters, List.forall_mem_cons] at hread
    simp only [exec, execSstore, hread] at h ⊢
    exact nextButReg_finish_map h fun m => ⟨v, rfl⟩
  | map b c =>
    simp only [readRegisters, List.forall_mem_cons] at hread
    simp only [exec, execMap, hread, segMap_setReg hcap] at h ⊢
    cases hm : segMap s (s.reg c) with
    | error e => rw [hm] at h; exact nextButReg_raise h r v
    | ok p => rw [hm] at h; exact nextButReg_advance h (setReg_setReg_exists p.2 r b v p.1)
  | unmap c =>
    simp only [readRegisters, List.forall_mem_cons] at hread
    simp only [exec, execUnmap, hread, segUnmap_setReg] at h ⊢
    exact nextButReg_finish_map (f := id) (by simpa using h) fun u => ⟨v, rfl⟩
  | out c =>
    simp only [readRegisters, List.forall_mem_cons] at hread
    simp only [exec, execOut, hread] at h ⊢
    split at h
    · rw [if_pos ‹_›]; exact nextButReg_raise h r v
    · rw [if_neg ‹_›]; exact nextButReg_advance h ⟨v, rfl⟩
  | loadp b c => exact execLoadp_setReg h (hread b (by simp [readRegisters])) (hread c (by simp [readRegisters]))
  | inp c => exact execInp_setReg v h
  | halt => cases h; exact ⟨v, rfl⟩
  | illegal14 low | illegal15 low => exact nextButReg_raise h r v

theorem keepsRest_setReg (t : State) (r : RegIdx) (v : Word) : KeepsRest t (t.setReg r v) :=
  ⟨keepsMemory_of_eq rfl, ⟨rfl, rfl⟩, ⟨rfl, rfl, rfl⟩, ⟨rfl, rfl⟩, rfl, rfl⟩

/-- Settles O31, the writes by the effects of an instruction, the reads by running it with an unread register changed. -/
theorem registersReadAndWrittenAsListed : Obligations.RegistersReadAndWrittenAsListed := by
  unfold Obligations.RegistersReadAndWrittenAsListed
  refine fun i s t h => ⟨fun r hr => (exec_effect h).reg_of_not_written hr, fun hcap r v hr => ?_⟩
  obtain ⟨v', h'⟩ := exec_setReg_of_not_read h hcap hr v
  exact ⟨t.setReg r v', h', fun r' hne => setReg_reg_of_ne t v' hne, rfl, keepsRest_setReg t r v'⟩

end Sys2Proof.Machine
end

section
/-! PROOFS. The ports (spec/10_state.md R41, R42). -/

namespace Sys2Proof.Machine

open Sys2Proof.Claims

/-- R42: an effect leaves the output stream alone, or is OUT's byte at its end. -/
theorem ExecEffect.out_cases {i : Instr} {s t : State} (h : ExecEffect i s t) :
    t.out = s.out ∨
    ∃ c, i = .out c ∧ (s.reg c).toNat < 256 ∧ t.out = s.out ++ [lowByte (s.reg c)] := by
  cases h with
  | emitted c hlt => exact .inr ⟨c, rfl, hlt, rfl⟩
  | _ => exact .inl (by simp)

theorem step_out_cases {s t : State} (h : step s = .next t) :
    t.out = s.out ∨
    ∃ w b, Fetches s w ∧ opcode w = 10 ∧ b.toNat = (s.reg (rC w)).toNat ∧ t.out = s.out ++ [b] := by
  obtain ⟨-, rfl⟩ | ⟨-, r, rfl⟩ | ⟨w, hw, he⟩ := step_effect h
  · exact .inl rfl
  · exact .inl rfl
  · obtain hkeep | ⟨c, hi, hlt, hout⟩ := he.out_cases
    · exact .inl hkeep
    · obtain ⟨ho, rfl⟩ := decode_eq_out_iff.1 hi
      exact .inr ⟨w, _, hw, ho, lowByte_toNat hlt, hout⟩

/-- R42: a byte once written is never withdrawn. -/
theorem run_out_prefix (k : Nat) {s t : State} (h : Host.Core.run Sys2Proof.core k s = .next t) : s.out <+: t.out := by
  induction k generalizing s with
  | zero => cases h; exact List.prefix_rfl
  | succ k ih =>
    obtain ⟨u, hstep, hrun⟩ := step_of_run_succ h
    refine List.IsPrefix.trans ?_ (ih hrun)
    obtain hkeep | ⟨_, b, -, -, -, hout⟩ := step_out_cases hstep
    · rw [hkeep]
    · rw [hout]; exact List.prefix_append ..

theorem step_out_of_lt {s : State} {w : Word} (hw : Fetches s w) (ho : opcode w = 10)
    (hlt : (s.reg (rC w)).toNat < 256) :
    step s = .next (advance (putOutput s (lowByte (s.reg (rC w))))) := by
  rw [step_of_fetches hw, decode_of_opcode_out ho]
  exact if_neg (Nat.not_le.2 hlt)

/-- Settles O32, by the effects of an instruction on the output stream, and by induction on the number of steps. -/
theorem outputStreamOnlyGrows : Obligations.OutputStreamOnlyGrows := by
  unfold Obligations.OutputStreamOnlyGrows
  refine ⟨fun _ _ _ _ s h => ?_, fun s t => step_out_cases, fun s w hw ho hlt => ?_, fun k s t => run_out_prefix k⟩
  · obtain ⟨-, rfl⟩ := launch_eq_some_iff.1 h
    rfl
  · exact ⟨_, _, step_out_of_lt hw ho hlt, lowByte_toNat hlt, rfl⟩

/-- R40, R41: no effect changes the capacity or whether `end` follows. -/
theorem ExecEffect.inputEnd_capacity {i : Instr} {s t : State} (h : ExecEffect i s t) :
    t.inputEnd = s.inputEnd ∧ t.capacity = s.capacity := by
  cases h <;> simp

/-- R41: an effect leaves the presented bytes alone, or is IN's and takes the first. -/
theorem ExecEffect.input_cases {i : Instr} {s t : State} (h : ExecEffect i s t) :
    t.input = s.input ∨ ∃ c b, i = .inp c ∧ s.input = b :: t.input ∧ t.reg c = zextByte b := by
  cases h with
  | took c b rest hin => exact .inr ⟨c, b, rfl, hin, setReg_reg_self ..⟩
  | _ => exact .inl (by simp)

/-- Settles O33, by the effects of an instruction on the input port. -/
theorem inputTakenOnlyByIn : Obligations.InputTakenOnlyByIn := by
  unfold Obligations.InputTakenOnlyByIn
  intro s t h
  obtain ⟨-, rfl⟩ | ⟨-, r, rfl⟩ | ⟨w, hw, he⟩ := step_effect h
  · exact ⟨⟨rfl, rfl⟩, .inl rfl⟩
  · exact ⟨⟨rfl, rfl⟩, .inl rfl⟩
  · refine ⟨he.inputEnd_capacity, he.input_cases.imp_right ?_⟩
    rintro ⟨c, b, hi, hin, hreg⟩
    obtain ⟨ho, rfl⟩ := decode_eq_inp_iff.1 hi
    exact ⟨w, b, hw, ho, hin, by rw [hreg, zextByte_toNat]⟩

end Sys2Proof.Machine
end

section
/-! PROOFS. The segment table: the program's copy, the lengths, the handles left, and reset
(spec/10_state.md R32, R38, R40, R44). -/

namespace Sys2Proof.Machine

open Sys2Proof.Claims

/-! ### The copy of Load program (R38) -/

theorem segLoadProgram_of_dead {m : Memory} {h : Word} (hl : Memory.live m h = false) :
    segLoadProgram m h = .error { cause := .unmappedSegmentAccess, info := h } := by
  simp [segLoadProgram, live_false_iff.1 hl]

/-- Two live segments that are the same read the same, each in its memory and under its handle. -/
theorem memRead_eq_of_seg {m m' : Memory} {h h' : Word} {g : Segment} (hg : Memory.seg m h = some g)
    (hg' : Memory.seg m' h' = some g) (o : Word) : memRead m' h' o = memRead m h o := by
  simp [memRead, hg, hg']

theorem len_congr {m m' : Memory} {h : Word} (e : Memory.seg m' h = Memory.seg m h) :
    Memory.len m' h = Memory.len m h := by simp [Memory.len, e]

theorem memWrite_seg_of_ne {m m' : Memory} {h h' o v : Word} (hw : memWrite m h o v = .ok m') (hne : h' ≠ h) :
    Memory.seg m' h' = Memory.seg m h' := by
  obtain ⟨g, -, -, rfl⟩ := memWrite_ok_iff.1 hw
  exact seg_setSeg_of_ne m _ hne

/-- Settles O39, by what the table holds under each handle after the copy. -/
theorem loadedProgramIsIndependentCopy : Obligations.LoadedProgramIsIndependentCopy := by
  unfold Obligations.LoadedProgramIsIndependentCopy
  refine fun m h => ⟨segLoadProgram_of_dead, fun hl => ?_⟩
  obtain ⟨g, hg⟩ := live_iff.1 hl
  have hprog : Memory.seg (Memory.setSeg m 0#32 g) 0#32 = some g := seg_setSeg_self m 0#32 g
  have hother : ∀ {h' : Word}, h' ≠ 0#32 → Memory.seg (Memory.setSeg m 0#32 g) h' = Memory.seg m h' :=
    seg_setSeg_of_ne m g
  refine ⟨Memory.setSeg m 0#32 g, segLoadProgram_ok_iff.2 ⟨g, hg, rfl⟩, ?_, memRead_eq_of_seg hg hprog,
    fun h' h0 => ⟨len_congr (hother h0), memRead_congr (hother h0)⟩, fun h0 o v m'' => ⟨fun hw => ?_, fun hw => ?_⟩⟩
  · simp [Memory.len, hg, hprog]
  · exact memRead_congr ((memWrite_seg_of_ne hw h0).trans (hother h0))
  · exact memRead_eq_of_seg hg ((memWrite_seg_of_ne hw h0.symm).trans hprog)

/-! ### Lengths (R32) -/

/-- R36: the handle a Map hands out is not live. -/
theorem handleToHandOut_not_live {s : State} {n : Word} (hinv : TableInv s) (hr : mapRefused s n = false) :
    Memory.live s.mem (handleToHandOut s) = false := by
  cases hf : s.free with
  | nil => exact (hinv.notYet _ (handleToHandOut_toNat hr hf).ge).1
  | cons h rest =>
    have hmem : h ∈ s.free := by simp [hf]
    have hpos : 1 ≤ h.toNat := one_le_toNat (by rintro rfl; exact hinv.zeroNotPooled hmem)
    have hlt : h.toNat < s.nextHandle := Nat.lt_of_not_le fun hle => (hinv.notYet h hle).2 hmem
    have hnot : Memory.live s.mem h ≠ true := fun hl => (hinv.handedOut h hpos hlt).1 hl hmem
    simpa [handleToHandOut, hf] using hnot

theorem ne_of_dead_of_len {m : Memory} {h h' n : Word} (hl : Memory.live m h' = false) (hn : Memory.len m h = some n) :
    h ≠ h' := by
  rintro rfl
  simp [Memory.len, live_false_iff.1 hl] at hn

theorem memWrite_len {m m' : Memory} {h o v : Word} (hw : memWrite m h o v = .ok m') (h' : Word) :
    Memory.len m' h' = Memory.len m h' := by
  obtain ⟨g, hg, -, rfl⟩ := memWrite_ok_iff.1 hw
  rw [len_setSeg]
  split
  · subst h'; simp [Memory.len, hg]
  · rfl

/-- R32: a handle live before and after an effect keeps its length, unless it is handle 0 and the effect is the copy of
Load program. -/
theorem ExecEffect.len_cases {i : Instr} {s t : State} (he : ExecEffect i s t) (hm : Memory.wf s.mem = true)
    (hinv : TableInv s) {h n n' : Word} (hn : Memory.len s.mem h = some n) (hn' : Memory.len t.mem h = some n') :
    n' = n ∨ (h = 0#32 ∧ ∃ b c, i = .loadp b c ∧ s.reg b ≠ 0#32 ∧ Memory.len s.mem (s.reg b) = some n') := by
  have hkept : Memory.len t.mem h = Memory.len s.mem h → n' = n := fun e =>
    Option.some.inj (hn'.symm.trans (e.trans hn))
  cases he with
  | fault r _ | halted => simp at hn'
  | stored a b c m hw => exact .inl (hkept (memWrite_len hw h))
  | mapped b c hr =>
    have hne : h ≠ handleToHandOut s := ne_of_dead_of_len (handleToHandOut_not_live hinv hr) hn
    exact .inl (hkept (len_congr (seg_setSeg_of_ne s.mem _ hne)))
  | unmapped c _ _ =>
    have hdead : Memory.live (Memory.drop s.mem (s.reg c)) (s.reg c) = false := live_false_iff.2 (seg_drop_self hm _)
    have hne : h ≠ s.reg c := ne_of_dead_of_len hdead hn'
    exact .inl (hkept (len_congr (seg_drop_of_ne s.mem hne)))
  | replaced b c g h0 hg _ =>
    by_cases hz : h = 0#32
    · subst hz
      refine .inr ⟨rfl, b, c, rfl, h0, ?_⟩
      rw [← hn']
      simp [Memory.len, hg]
    · exact .inl (hkept (len_congr (seg_setSeg_of_ne s.mem g hz)))
  | _ => exact .inl (hkept (by simp))

/-- R32 for a step, with the Load program as a fetched Word. -/
theorem step_len_cases {s t : State} (hinv : Inv s) (hstep : step s = .next t) {h n n' : Word}
    (hn : Memory.len s.mem h = some n) (hn' : Memory.len t.mem h = some n') :
    n' = n ∨ (h = 0#32 ∧
      ∃ w, Fetches s w ∧ opcode w = 12 ∧ s.reg (rB w) ≠ 0#32 ∧ Memory.len s.mem (s.reg (rB w)) = some n') := by
  obtain ⟨-, rfl⟩ | ⟨-, r, rfl⟩ | ⟨w, hw, he⟩ := step_effect hstep
  · exact .inl (Option.some.inj (hn'.symm.trans hn))
  · simp at hn'
  · refine (he.len_cases hinv.memory (hinv.table hw.1) hn hn').imp_right ?_
    rintro ⟨h0, b, c, hi, hb, hlen⟩
    obtain ⟨ho, rfl, -⟩ := decode_eq_loadp_iff.1 hi
    exact ⟨h0, w, hw, ho, hb, hlen⟩

/-- Settles O43, by the length each effect leaves under a handle. -/
theorem segmentLengthsNeverChange : Obligations.SegmentLengthsNeverChange := by
  unfold Obligations.SegmentLengthsNeverChange
  refine fun s t hinv hstep => ⟨fun h n n' h0 hn hn' => ?_, fun n n' hn hn' hne => ?_⟩
  · exact (step_len_cases hinv hstep hn hn').resolve_right fun hc => h0 hc.1
  · exact ((step_len_cases hinv hstep hn hn').resolve_left hne).2

/-! ### No handle left (R40) -/

theorem mapRefused_of_no_handle {s : State} (n : Word) (hf : s.free = []) (hnext : s.nextHandle = 2 ^ 32) :
    mapRefused s n = true := by
  simp [mapRefused, hf, hnext]

theorem execMap_of_refused {b c : RegIdx} {s : State} (hr : mapRefused s (s.reg c) = true) :
    execMap b c s = raise { cause := .resourceExhausted, info := s.reg c } s := by
  simp [execMap, segMap, hr, Except.map, finish]

/-- Settles O41, by the default capacity's one case and the fault of a refused Map. -/
theorem mapRefusedWhenHandlesRunOut : Obligations.MapRefusedWhenHandlesRunOut := by
  unfold Obligations.MapRefusedWhenHandlesRunOut
  refine ⟨fun s n => mapRefused_of_no_handle n, fun s n hcap hle => ?_, fun b c s hr => ?_⟩
  · refine ⟨fun hr => ?_, fun ⟨hf, hnext⟩ => mapRefused_of_no_handle n hf hnext⟩
    rw [mapRefused_handlesOnly hcap, Bool.and_eq_true, List.isEmpty_iff, decide_eq_true_eq] at hr
    exact ⟨hr.1, hle.antisymm hr.2⟩
  · exact ⟨_, execMap_of_refused hr, enterFault_faultEntered _ s⟩

/-! ### Reset (R44) -/

theorem reset_reg (r : RegIdx) : State.reset.reg r = 0#32 := by
  simp [State.reg, State.reset, Vector.get_eq_getElem]

/-- R44: a table of segment 0 alone. -/
theorem seg_singleton_zero (g : Segment) (h : Word) :
    Memory.seg [(0, g)] h = if h = 0#32 then some g else none := by
  simp [Memory.seg, assocGet, ← BitVec.toNat_inj]

theorem ofWords_len (ws : List Word) : (Segment.ofWords ws).len = BitVec.ofNat 32 ws.length := rfl

/-- R231: the program's segment holds the program's Words. -/
theorem memRead_program {program : List Word} (hlen : program.length ≤ 2 ^ 32 - 1) {k : Nat} (hk : k < program.length) :
    memRead [(0, Segment.ofWords program)] 0#32 (BitVec.ofNat 32 k) = .ok program[k] := by
  have hk' : (BitVec.ofNat 32 k).toNat = k := by simp only [BitVec.toNat_ofNat]; omega
  have hlen' : (Segment.ofWords program).len.toNat = program.length := by
    simp only [ofWords_len, BitVec.toNat_ofNat]; omega
  refine memRead_ok_iff.2 ⟨Segment.ofWords program, seg_singleton_zero .., ?_, ?_⟩
  · rw [hk', hlen']; exact hk
  · simp [ofWords_word, hk', hk]

/-- Settles O45, by the state of a launch and the Words of its segment 0. -/
theorem resetGivesEveryListedValue : Obligations.ResetGivesEveryListedValue := by
  unfold Obligations.ResetGivesEveryListedValue
  refine fun program input e cap hlen => ⟨_, launch_eq_some_iff.2 ⟨hlen, rfl⟩, reset_reg, rfl, rfl, rfl, rfl, ?_,
    fun k hk => memRead_program hlen hk, fun h => ?_, rfl, rfl, rfl, rfl⟩
  · exact len_some_iff.2 ⟨_, seg_singleton_zero .., ofWords_len program⟩
  · simp [Memory.live, seg_singleton_zero]

end Sys2Proof.Machine
end

section
/-! PROOFS. The checked access: liveness before bounds, and the one Word a write changes (spec/20_memory.md R52 to R54). -/

namespace Sys2Proof.Machine

open Sys2Proof.Claims

/-! ### Liveness before bounds (R54): what a read and a write answer in each of the three cases -/

/-- R54: a dead handle, an offset outside a live segment, and an offset inside one are all the cases of an access. -/
theorem access_cases (m : Memory) (h o : Word) :
    Memory.live m h = false ∨ (∃ n, Memory.len m h = some n ∧ n.toNat ≤ o.toNat) ∨
      ∃ n, Memory.len m h = some n ∧ o.toNat < n.toNat := by
  cases hg : Memory.seg m h with
  | none => exact .inl (live_false_iff.2 hg)
  | some g =>
    have hlen : Memory.len m h = some g.len := len_some_iff.2 ⟨g, hg, rfl⟩
    exact .inr ((Nat.lt_or_ge o.toNat g.len.toNat).symm.imp (⟨_, hlen, ·⟩) (⟨_, hlen, ·⟩))

theorem memRead_of_dead {m : Memory} {h : Word} (hd : Memory.live m h = false) (o : Word) :
    memRead m h o = .error { cause := .unmappedSegmentAccess, info := h } := by
  simp [memRead, live_false_iff.1 hd]

theorem memWrite_of_dead {m : Memory} {h : Word} (hd : Memory.live m h = false) (o v : Word) :
    memWrite m h o v = .error { cause := .unmappedSegmentAccess, info := h } := by
  simp [memWrite, live_false_iff.1 hd]

section Live

variable {m : Memory} {h o n : Word} (hn : Memory.len m h = some n)
include hn

theorem memRead_of_len_le (hle : n.toNat ≤ o.toNat) :
    memRead m h o = .error { cause := .outOfBoundsOffset, info := o } := by
  obtain ⟨g, hg, rfl⟩ := len_some_iff.1 hn
  simp [memRead, hg, hle]

theorem memWrite_of_len_le (v : Word) (hle : n.toNat ≤ o.toNat) :
    memWrite m h o v = .error { cause := .outOfBoundsOffset, info := o } := by
  obtain ⟨g, hg, rfl⟩ := len_some_iff.1 hn
  simp [memWrite, hg, hle]

theorem memRead_ok_of_lt_len (hlt : o.toNat < n.toNat) : ∃ w, memRead m h o = .ok w := by
  obtain ⟨g, hg, rfl⟩ := len_some_iff.1 hn
  exact ⟨_, memRead_ok_iff.2 ⟨g, hg, hlt, rfl⟩⟩

theorem memWrite_ok_of_lt_len (v : Word) (hlt : o.toNat < n.toNat) : ∃ m', memWrite m h o v = .ok m' := by
  obtain ⟨g, hg, rfl⟩ := len_some_iff.1 hn
  exact ⟨_, memWrite_ok_iff.2 ⟨g, hg, hlt, rfl⟩⟩

end Live

/-- Settles O37, by the answer of each access in each of the three cases. -/
theorem livenessCheckedBeforeBounds : Obligations.LivenessCheckedBeforeBounds := by
  unfold Obligations.LivenessCheckedBeforeBounds
  refine fun m h o v => ⟨fun hd => ?_, fun n hn hle => ?_, fun n hn hlt => ?_⟩
  · exact ⟨memRead_of_dead hd o, memWrite_of_dead hd o v⟩
  · exact ⟨memRead_of_len_le hn hle, memWrite_of_len_le hn v hle⟩
  · exact ⟨memRead_ok_of_lt_len hn hlt, memWrite_ok_of_lt_len hn v hlt⟩

/-! ### What a write changes (R53) -/

/-- R53: a write passes the check where a read of the same Word passes it. -/
theorem memWrite_ok_iff_memRead_ok {m : Memory} {h o v : Word} :
    (∃ m', memWrite m h o v = .ok m') ↔ ∃ w, memRead m h o = .ok w := by
  refine ⟨fun ⟨m', hw⟩ => ?_, fun ⟨w, hr⟩ => ?_⟩
  · obtain ⟨g, hg, ho, -⟩ := memWrite_ok_iff.1 hw
    exact ⟨_, memRead_ok_iff.2 ⟨g, hg, ho, rfl⟩⟩
  · obtain ⟨g, hg, ho, -⟩ := memRead_ok_iff.1 hr
    exact ⟨_, memWrite_ok_iff.2 ⟨g, hg, ho, rfl⟩⟩

/-- R53: where a read faults, a write of the same Word takes the same fault. -/
theorem memWrite_error_of_memRead_error {m : Memory} {h o : Word} {r : Raise} (hr : memRead m h o = .error r) (v : Word) :
    memWrite m h o v = .error r := by
  obtain hd | ⟨n, hn, hle⟩ | ⟨n, hn, hlt⟩ := access_cases m h o
  · rw [memRead_of_dead hd] at hr
    cases hr
    exact memWrite_of_dead hd o v
  · rw [memRead_of_len_le hn hle] at hr
    cases hr
    exact memWrite_of_len_le hn v hle
  · obtain ⟨w, hw⟩ := memRead_ok_of_lt_len hn hlt
    simp [hw] at hr

section Written

variable {m m' : Memory} {h o v : Word} (hw : memWrite m h o v = .ok m')
include hw

/-- R53: under the handle written to, the table holds the same segment with the one Word stored. -/
theorem memWrite_seg_self : ∃ g, Memory.seg m h = some g ∧ Memory.seg m' h = some (g.setWord o v) := by
  obtain ⟨g, hg, -, rfl⟩ := memWrite_ok_iff.1 hw
  exact ⟨g, hg, seg_setSeg_self m h _⟩

theorem memRead_memWrite_self (hm : Memory.wf m = true) : memRead m' h o = .ok v := by
  obtain ⟨g, hg, ho, rfl⟩ := memWrite_ok_iff.1 hw
  exact memRead_ok_iff.2 ⟨_, seg_setSeg_self m h _, ho, setWord_word_self (seg_wf hm hg) o v⟩

theorem memRead_memWrite_of_ne {h' o' : Word} (hne : ¬ (h' = h ∧ o' = o)) : memRead m' h' o' = memRead m h' o' := by
  by_cases hh : h' = h
  · subst hh
    obtain ⟨g, hg, hg'⟩ := memWrite_seg_self hw
    have hword : (g.setWord o v).word o' = g.word o' := setWord_word_of_ne g v fun ho => hne ⟨rfl, ho⟩
    simp [memRead, hg, hg', hword]
  · exact memRead_congr (memWrite_seg_of_ne hw hh) o'

theorem memWrite_live (h' : Word) : Memory.live m' h' = Memory.live m h' := by
  simpa [Memory.len, Memory.live] using congrArg Option.isSome (memWrite_len hw h')

end Written

/-- Settles O38, by the check that a write shares with a read and by what the table reads after it. -/
theorem writeChangesExactlyOneWord : Obligations.WriteChangesExactlyOneWord := by
  unfold Obligations.WriteChangesExactlyOneWord
  refine fun m h o v hm => ⟨memWrite_ok_iff_memRead_ok, fun r hr => memWrite_error_of_memRead_error hr v,
    fun m' hw => ⟨memRead_memWrite_self hw hm, fun h' o' hne => memRead_memWrite_of_ne hw hne, fun h' => ?_⟩⟩
  exact ⟨memWrite_live hw h', memWrite_len hw h'⟩

end Sys2Proof.Machine
end

section
/-! PROOFS. The rows and fields of the decoder that the statements of spec/30_encoding.md share (R82 to R88), and what the
canonical Words hold in them (R93). -/

namespace Sys2Proof.Machine

open Sys2Proof.Claims

/-! ### The rows of the decoder (R85, R87) -/

theorem opcode_lt (w : Word) : opcode w < 16 := by
  have := w.isLt
  simp only [opcode]
  omega

theorem fieldA_eq_rA (w : Word) : fieldA w = rA w := by
  simp [fieldA, regField, bitField, rA, Nat.shiftRight_eq_div_pow]

theorem fieldLvA_eq_rLv (w : Word) : fieldLvA w = rLv w := by
  simp [fieldLvA, regField, bitField, rLv, Nat.shiftRight_eq_div_pow]

theorem fieldImm_eq_literal (w : Word) : fieldImm w = literal w := by
  simp [fieldImm, bitField, literal]

theorem decode_of_opcode_cmov {w : Word} (h : opcode w = 0) : decode w = .cmov (rA w) (rB w) (rC w) := by
  simp [decode, opcodeOf_eq_opcode, h, fieldA_eq_rA, fieldB_eq_rB, fieldC_eq_rC]

theorem decode_of_opcode_sload {w : Word} (h : opcode w = 1) : decode w = .sload (rA w) (rB w) (rC w) := by
  simp [decode, opcodeOf_eq_opcode, h, fieldA_eq_rA, fieldB_eq_rB, fieldC_eq_rC]

theorem decode_of_opcode_sstore {w : Word} (h : opcode w = 2) : decode w = .sstore (rA w) (rB w) (rC w) := by
  simp [decode, opcodeOf_eq_opcode, h, fieldA_eq_rA, fieldB_eq_rB, fieldC_eq_rC]

theorem decode_of_opcode_add {w : Word} (h : opcode w = 3) : decode w = .add (rA w) (rB w) (rC w) := by
  simp [decode, opcodeOf_eq_opcode, h, fieldA_eq_rA, fieldB_eq_rB, fieldC_eq_rC]

theorem decode_of_opcode_mul {w : Word} (h : opcode w = 4) : decode w = .mul (rA w) (rB w) (rC w) := by
  simp [decode, opcodeOf_eq_opcode, h, fieldA_eq_rA, fieldB_eq_rB, fieldC_eq_rC]

theorem decode_of_opcode_div {w : Word} (h : opcode w = 5) : decode w = .div (rA w) (rB w) (rC w) := by
  simp [decode, opcodeOf_eq_opcode, h, fieldA_eq_rA, fieldB_eq_rB, fieldC_eq_rC]

theorem decode_of_opcode_nand {w : Word} (h : opcode w = 6) : decode w = .nand (rA w) (rB w) (rC w) := by
  simp [decode, opcodeOf_eq_opcode, h, fieldA_eq_rA, fieldB_eq_rB, fieldC_eq_rC]

theorem decode_of_opcode_map {w : Word} (h : opcode w = 8) : decode w = .map (rB w) (rC w) := by
  simp [decode, opcodeOf_eq_opcode, h, fieldB_eq_rB, fieldC_eq_rC]

theorem decode_of_opcode_unmap {w : Word} (h : opcode w = 9) : decode w = .unmap (rC w) := by
  simp [decode, opcodeOf_eq_opcode, h, fieldC_eq_rC]

theorem decode_of_opcode_lv {w : Word} (h : opcode w = 13) : decode w = .lv (rLv w) (literal w) := by
  simp [decode, opcodeOf_eq_opcode, h, fieldLvA_eq_rLv, fieldImm_eq_literal]

theorem decode_of_opcode_illegal14 {w : Word} (h : opcode w = 14) : decode w = .illegal14 (fieldLow w) := by
  simp [decode, opcodeOf_eq_opcode, h]

theorem decode_of_opcode_illegal15 {w : Word} (h : opcode w = 15) : decode w = .illegal15 (fieldLow w) := by
  simp [decode, opcodeOf_eq_opcode, h]

/-! ### The fields of a canonical Word (R93) -/

theorem rA_encode3 (op : Nat) (a b c : RegIdx) : rA (BitVec.ofNat 32 (encode3 op a b c)) = a := by
  apply Fin.ext
  simp only [rA, encode3, BitVec.toNat_ofNat]
  omega

theorem rB_encode3 (op a : Nat) (b c : RegIdx) : rB (BitVec.ofNat 32 (encode3 op a b c)) = b := by
  apply Fin.ext
  simp only [rB, encode3, BitVec.toNat_ofNat]
  omega

theorem rC_encode3 (op a b : Nat) (c : RegIdx) : rC (BitVec.ofNat 32 (encode3 op a b c)) = c := by
  apply Fin.ext
  simp only [rC, encode3, BitVec.toNat_ofNat]
  omega

theorem rLv_encodeLv (a : RegIdx) (imm : BitVec 25) : rLv (BitVec.ofNat 32 (encodeLv a imm.toNat)) = a := by
  apply Fin.ext
  have := imm.isLt
  simp only [rLv, encodeLv, BitVec.toNat_ofNat]
  omega

theorem literal_encodeLv (a : RegIdx) (imm : BitVec 25) : literal (BitVec.ofNat 32 (encodeLv a imm.toNat)) = imm := by
  apply BitVec.eq_of_toNat_eq
  have := imm.isLt
  simp only [literal, encodeLv, BitVec.toNat_ofNat]
  omega

/-- R88: the low 28 bits of a Word are those below its opcode. -/
theorem fieldLow_toNat (w : Word) : (fieldLow w).toNat = w.toNat % 2 ^ 28 := by
  simp [fieldLow, bitField]

theorem fieldLow_ofNat (op : Nat) (low : BitVec 28) : fieldLow (BitVec.ofNat 32 (op * 2 ^ 28 + low.toNat)) = low := by
  apply BitVec.eq_of_toNat_eq
  have := low.isLt
  rw [fieldLow_toNat, BitVec.toNat_ofNat]
  omega

/-- A Word is its opcode above its low 28 bits. -/
theorem ofNat_opcode_fieldLow (w : Word) : BitVec.ofNat 32 (opcode w * 2 ^ 28 + (fieldLow w).toNat) = w := by
  apply BitVec.eq_of_toNat_eq
  have := w.isLt
  rw [BitVec.toNat_ofNat, fieldLow_toNat, opcode]
  omega

/-- R82, R93: the canonical Word of an instruction has the opcode of its row. -/
theorem opcode_encode (i : Instr) : opcode (encode i) = i.opcode := by
  rw [← opcodeOf_eq_opcode]
  cases i with
  | cmov a b c => exact Laws.EncodedOpcode.cmov a b c
  | sload a b c => exact Laws.EncodedOpcode.sload a b c
  | sstore a b c => exact Laws.EncodedOpcode.sstore a b c
  | add a b c => exact Laws.EncodedOpcode.add a b c
  | mul a b c => exact Laws.EncodedOpcode.mul a b c
  | div a b c => exact Laws.EncodedOpcode.div a b c
  | nand a b c => exact Laws.EncodedOpcode.nand a b c
  | halt => exact Laws.EncodedOpcode.halt
  | map b c => exact Laws.EncodedOpcode.map b c
  | unmap c => exact Laws.EncodedOpcode.unmap c
  | out c => exact Laws.EncodedOpcode.out c
  | inp c => exact Laws.EncodedOpcode.inp c
  | loadp b c => exact Laws.EncodedOpcode.loadp b c
  | lv a imm => exact Laws.EncodedOpcode.lv a imm
  | illegal14 low => exact Laws.EncodedOpcode.illegal14 low
  | illegal15 low => exact Laws.EncodedOpcode.illegal15 low

end Sys2Proof.Machine
end

section
/-! PROOFS. The round trip from an instruction through its canonical Word (spec/30_encoding.md R85, R93). -/

namespace Sys2Proof.Machine

open Sys2Proof.Claims

/-- R85, R93: the opcode of the canonical Word selects the row, and the row's fields read the operands back. -/
theorem decode_encode (i : Instr) : decode (encode i) = i := by
  have hop : opcode (encode i) = i.opcode := opcode_encode i
  cases i with
  | cmov a b c => rw [decode_of_opcode_cmov hop, encode, rA_encode3, rB_encode3, rC_encode3]
  | sload a b c => rw [decode_of_opcode_sload hop, encode, rA_encode3, rB_encode3, rC_encode3]
  | sstore a b c => rw [decode_of_opcode_sstore hop, encode, rA_encode3, rB_encode3, rC_encode3]
  | add a b c => rw [decode_of_opcode_add hop, encode, rA_encode3, rB_encode3, rC_encode3]
  | mul a b c => rw [decode_of_opcode_mul hop, encode, rA_encode3, rB_encode3, rC_encode3]
  | div a b c => rw [decode_of_opcode_div hop, encode, rA_encode3, rB_encode3, rC_encode3]
  | nand a b c => rw [decode_of_opcode_nand hop, encode, rA_encode3, rB_encode3, rC_encode3]
  | halt => exact decode_of_opcode_halt hop
  | map b c => rw [decode_of_opcode_map hop, encode, rB_encode3, rC_encode3]
  | unmap c => rw [decode_of_opcode_unmap hop, encode, rC_encode3]
  | out c => rw [decode_of_opcode_out hop, encode, rC_encode3]
  | inp c => rw [decode_of_opcode_inp hop, encode, rC_encode3]
  | loadp b c => rw [decode_of_opcode_loadp hop, encode, rB_encode3, rC_encode3]
  | lv a imm => rw [decode_of_opcode_lv hop, encode, rLv_encodeLv, literal_encodeLv]
  | illegal14 low => rw [decode_of_opcode_illegal14 hop, encode, fieldLow_ofNat]
  | illegal15 low => rw [decode_of_opcode_illegal15 hop, encode, fieldLow_ofNat]

/-- Settles O16, by the round trip of each row. -/
theorem decodeInvertsEncode : Obligations.DecodeInvertsEncode := by
  unfold Obligations.DecodeInvertsEncode
  exact decode_encode

end Sys2Proof.Machine
end

section
/-! PROOFS. The illegal opcodes (spec/30_encoding.md R88, R201), the match values of the rows (R82, R87), and the unread
fields (R90). -/

namespace Sys2Proof.Machine

open Sys2Proof.Claims

/-! ### The illegal opcodes -/

theorem exec_illegal14_faults (low : BitVec 28) (s : State) : ∃ t, exec (.illegal14 low) s = .next t ∧
    FaultEntered 1#3 (BitVec.ofNat 32 (14 * 2 ^ 28 + low.toNat)) s t :=
  ⟨_, rfl, enterFault_faultEntered ⟨.invalidOpcode, encode (.illegal14 low)⟩ s⟩

theorem exec_illegal15_faults (low : BitVec 28) (s : State) : ∃ t, exec (.illegal15 low) s = .next t ∧
    FaultEntered 1#3 (BitVec.ofNat 32 (15 * 2 ^ 28 + low.toNat)) s t :=
  ⟨_, rfl, enterFault_faultEntered ⟨.invalidOpcode, encode (.illegal15 low)⟩ s⟩

/-- R88: opcodes 14 and 15 fault with the whole Word, which their rows have kept. -/
theorem exec_decode_of_illegal {w : Word} (h : 13 < opcode w) (s : State) :
    ∃ t, exec (decode w) s = .next t ∧ FaultEntered 1#3 w s t := by
  have hw := ofNat_opcode_fieldLow w
  obtain h14 | h15 : opcode w = 14 ∨ opcode w = 15 := by have := opcode_lt w; omega
  · rw [h14] at hw
    simpa only [decode_of_opcode_illegal14 h14, hw] using exec_illegal14_faults (fieldLow w) s
  · rw [h15] at hw
    simpa only [decode_of_opcode_illegal15 h15, hw] using exec_illegal15_faults (fieldLow w) s

theorem decode_ne_of_opcode_ne {w : Word} {i : Instr} (h : opcode w ≠ i.opcode) : decode w ≠ i := by
  rintro rfl
  exact h (decode_opcode w).symm

/-- Settles O15, by the fault of each illegal row and the opcode that the row of a Word has. -/
theorem illegalOpcodesRaiseInvalidOpcode : Obligations.IllegalOpcodesRaiseInvalidOpcode := by
  unfold Obligations.IllegalOpcodesRaiseInvalidOpcode
  refine ⟨fun w h s => exec_decode_of_illegal h s, exec_illegal14_faults, exec_illegal15_faults, fun w h low => ?_⟩
  constructor
  · exact decode_ne_of_opcode_ne (by rw [Instr.opcode]; omega)
  · exact decode_ne_of_opcode_ne (by rw [Instr.opcode]; omega)

/-! ### The match values -/

/-- R87: the mask 0xF0000000 keeps the opcode and clears the rest. -/
theorem mask_toNat (w : Word) : (w &&& 0xF0000000#32).toNat = opcode w * 2 ^ 28 := by
  have hhigh : (w.toNat &&& 0xF0000000) / 2 ^ 28 = opcode w := by
    calc (w.toNat &&& 0xF0000000) / 2 ^ 28 = opcode w &&& (2 ^ 4 - 1) := Nat.and_div_two_pow
      _ = opcode w % 2 ^ 4 := Nat.and_two_pow_sub_one_eq_mod _ 4
      _ = opcode w := Nat.mod_eq_of_lt (opcode_lt w)
  have hlow : (w.toNat &&& 0xF0000000) % 2 ^ 28 = 0 := by
    rw [Nat.and_mod_two_pow]
    exact Nat.and_zero _
  calc (w &&& 0xF0000000#32).toNat = w.toNat &&& 0xF0000000 := BitVec.toNat_and w _
    _ = opcode w * 2 ^ 28 := by omega

/-- Settles O18: the row of a Word is its opcode's, and the masked Word is that opcode at bit 28. -/
theorem everyWordHasItsTableRow : Obligations.EveryWordHasItsTableRow := by
  unfold Obligations.EveryWordHasItsTableRow
  intro w k hk
  rw [decode_opcode, ← BitVec.toNat_inj, mask_toNat, BitVec.toNat_ofNat]
  omega

/-! ### The unread fields -/

theorem decode_eq_of_reads_none {w w' : Word} (hop : opcode w = opcode w') (h : opcode w = 7) :
    decode w = decode w' := by
  rw [decode_of_opcode_halt h, decode_of_opcode_halt (hop ▸ h)]

theorem decode_eq_of_reads_C {w w' : Word} (hop : opcode w = opcode w')
    (h : opcode w = 9 ∨ opcode w = 10 ∨ opcode w = 11) (hC : rC w = rC w') : decode w = decode w' := by
  obtain h | h | h := h
  · rw [decode_of_opcode_unmap h, decode_of_opcode_unmap (hop ▸ h), hC]
  · rw [decode_of_opcode_out h, decode_of_opcode_out (hop ▸ h), hC]
  · rw [decode_of_opcode_inp h, decode_of_opcode_inp (hop ▸ h), hC]

theorem decode_eq_of_reads_B_C {w w' : Word} (hop : opcode w = opcode w') (h : opcode w = 8 ∨ opcode w = 12)
    (hB : rB w = rB w') (hC : rC w = rC w') : decode w = decode w' := by
  obtain h | h := h
  · rw [decode_of_opcode_map h, decode_of_opcode_map (hop ▸ h), hB, hC]
  · rw [decode_of_opcode_loadp h, decode_of_opcode_loadp (hop ▸ h), hB, hC]

/-- Settles O19, by the fields each row reads and the fields `encode3` writes. -/
theorem unreadFieldsGiveSameInstruction : Obligations.UnreadFieldsGiveSameInstruction := by
  unfold Obligations.UnreadFieldsGiveSameInstruction
  refine ⟨fun w w' hop => ⟨decode_eq_of_reads_none hop, decode_eq_of_reads_C hop, decode_eq_of_reads_B_C hop⟩, rfl,
    fun c => ⟨?unmap, ?out, ?inp⟩, fun b c => ⟨?map, ?loadp⟩⟩
  case unmap => exact ⟨rA_encode3 9 0 0 c, rB_encode3 9 0 0 c⟩
  case out => exact ⟨rA_encode3 10 0 0 c, rB_encode3 10 0 0 c⟩
  case inp => exact ⟨rA_encode3 11 0 0 c, rB_encode3 11 0 0 c⟩
  case map => exact rA_encode3 8 0 b c
  case loadp => exact rA_encode3 12 0 b c

end Sys2Proof.Machine
end

section
/-! PROOFS. The bytes of the program image (spec/30_encoding.md R92; spec/20_memory.md R55). -/

namespace Sys2Proof.Machine

/-- R92: the four bytes of a Word are its 8-bit fields from the most significant down. -/
theorem bytesOfWord_map_toNat (w : Word) : (bytesOfWord w).map BitVec.toNat =
    [w.toNat / 2 ^ 24, w.toNat / 2 ^ 16 % 2 ^ 8, w.toNat / 2 ^ 8 % 2 ^ 8, w.toNat % 2 ^ 8] := by
  have htop : w.toNat / 2 ^ 24 % 2 ^ 8 = w.toNat / 2 ^ 24 := Nat.mod_eq_of_lt (by have := w.isLt; omega)
  simp only [bytesOfWord, bitField, List.map_cons, List.map_nil, BitVec.toNat_ofNat, Nat.mod_mod,
    Nat.shiftRight_eq_div_pow, htop, pow_zero, Nat.div_one]

/-- R55: four bytes that hold the 8-bit fields of a Word, most significant first, make that Word. -/
theorem wordOfBytes_eq_of_map_toNat {w : Word} {b0 b1 b2 b3 : Byte} (h : [b0, b1, b2, b3].map BitVec.toNat =
    [w.toNat / 2 ^ 24, w.toNat / 2 ^ 16 % 2 ^ 8, w.toNat / 2 ^ 8 % 2 ^ 8, w.toNat % 2 ^ 8]) :
    wordOfBytes b0 b1 b2 b3 = w := by
  simp only [List.map_cons, List.map_nil, List.cons.injEq, and_true] at h
  obtain ⟨h0, h1, h2, h3⟩ := h
  apply BitVec.eq_of_toNat_eq
  have := w.isLt
  rw [wordOfBytes, BitVec.toNat_ofNat, h0, h1, h2, h3]
  omega

theorem decodeBytes_bytesOfWord (w : Word) (rest : List Byte) :
    decodeBytes (bytesOfWord w ++ rest) = .ok (decode w, rest) :=
  congrArg (fun v => Except.ok (decode v, rest)) (wordOfBytes_eq_of_map_toNat (bytesOfWord_map_toNat w))

/-- Settles O20: the bytes are the Word's 8-bit fields, and four such bytes make the Word again. -/
theorem imageBytesDecodeBigEndian : Obligations.ImageBytesDecodeBigEndian := by
  unfold Obligations.ImageBytesDecodeBigEndian
  exact fun w rest => ⟨bytesOfWord_map_toNat w, decodeBytes_bytesOfWord w rest⟩

end Sys2Proof.Machine
end

section
/-! PROOFS. The execution cycle: the program counter, the fetch and the dispatch (spec/40_execution_cycle.md R101, R104,
R108). -/

namespace Sys2Proof.Machine

open Sys2Proof.Claims

/-! ### The program counter after an instruction (R104) -/

/-- R104, R180: a Load program that takes no fault leaves `pc` at its target. -/
theorem ExecEffect.pc_of_loadp {b c : RegIdx} {s t : State} (h : ExecEffect (.loadp b c) s t) (ht : t.run ≠ .faulted) :
    t.pc = s.reg c := by
  cases h with
  | fault => exact absurd rfl ht
  | wrote a v ha => simp [writtenRegister] at ha
  | jumped => rfl
  | replaced => rfl

/-- R104, R106: any other instruction that takes no fault leaves `pc` where `advance` puts it, or is an Input that waits. -/
theorem ExecEffect.pc_of_not_loadp {i : Instr} {s t : State} (h : ExecEffect i s t) (ht : t.run ≠ .faulted)
    (hi : ∀ b c, i ≠ .loadp b c) :
    t.pc = (advance s).pc ∨ ((∃ c, i = .inp c) ∧ s.input = [] ∧ s.inputEnd = false) := by
  cases h with
  | fault => exact absurd rfl ht
  | waited c hin hend => exact .inr ⟨⟨c, rfl⟩, hin, hend⟩
  | jumped b c => exact absurd rfl (hi b c)
  | replaced b c => exact absurd rfl (hi b c)
  | _ => exact .inl (by simp)

/-- Settles O27, by the `pc` each effect of an instruction leaves. -/
theorem onlyLoadpSetsProgramCounter : Obligations.OnlyLoadpSetsProgramCounter := by
  unfold Obligations.OnlyLoadpSetsProgramCounter
  refine fun i s t _ hexec ht => ⟨?_, fun hi hready => ?_⟩
  · rintro b c rfl
    exact (exec_effect hexec).pc_of_loadp ht
  · exact advanced_of_pc (((exec_effect hexec).pc_of_not_loadp ht hi).resolve_right hready)

/-! ### The fetch and the dispatch (R101, R108) -/

/-- Settles O24: `step_of_fetches` says it. -/
theorem stepRunsDecodedInstruction : Obligations.StepRunsDecodedInstruction := by
  unfold Obligations.StepRunsDecodedInstruction
  exact fun _ _ => step_of_fetches

/-- R101: a Running state with `pc` outside segment 0 takes InvalidProgramCounter with `pc`. -/
theorem step_of_fetch_outside {s : State} (hrun : s.run = .running) (hf : fetch s = .outside) :
    step s = .next (enterFault { cause := .invalidProgramCounter, info := s.pc } s) := by
  simp [step, hrun, hf, raise]

/-- Settles O25: with `pc` below the length the fetch is the checked read of segment 0, otherwise the step is the fault
entry. -/
theorem fetchChecksProgramCounter : Obligations.FetchChecksProgramCounter := by
  unfold Obligations.FetchChecksProgramCounter
  refine fun s n hrun hlen => ⟨fun hlt => ?_, fun hle => ?_⟩
  · obtain ⟨w, hread⟩ := memRead_ok_of_lt_len hlen hlt
    exact ⟨w, hread, fetch_word_iff.2 hread⟩
  · have hout : fetch s = .outside := fetch_outside_iff.2 ⟨n, hlen, hle⟩
    exact ⟨_, step_of_fetch_outside hrun hout, enterFault_faultEntered _ s⟩

end Sys2Proof.Machine
end

section
/-! PROOFS. Conditional move (spec/41_conditional_move.md R120), with what it shares with the other instructions that write
one register: the frame of a register write, and the number a three-register Word is (spec/30_encoding.md R93). -/

namespace Sys2Proof.Machine

open Sys2Proof.Claims

/-! ### Shared by the instructions of the three-register format -/

/-- R93: `Encode3` of an opcode and three register numbers fits in a Word. -/
theorem encode3_toNat {op : Nat} (hop : op < 16) (a b c : RegIdx) :
    (BitVec.ofNat 32 (encode3 op a b c)).toNat = op * 2 ^ 28 + a.val * 64 + b.val * 8 + c.val := by
  simp only [encode3, BitVec.toNat_ofNat]
  omega

theorem keepsRest_advance (s : State) : KeepsRest s (advance s) :=
  ⟨keepsMemory_of_eq rfl, ⟨rfl, rfl⟩, ⟨rfl, rfl, rfl⟩, ⟨rfl, rfl⟩, rfl, rfl⟩

/-- The frame of an instruction that writes register `a`: every other register and the rest are kept, and `pc` is one
further. -/
theorem advance_setReg_frame (s : State) (a : RegIdx) (v : Word) :
    KeepsRegsBut a s (advance (s.setReg a v)) ∧ KeepsRest s (advance (s.setReg a v)) ∧
      Advanced s (advance (s.setReg a v)) :=
  ⟨fun _ hne => setReg_reg_of_ne s v hne, keepsRest_advance (s.setReg a v), advanced_of_pc rfl⟩

/-! ### Conditional move -/

/-- A register written with the value it holds is no change. -/
theorem setReg_reg_eq_self (s : State) (a : RegIdx) : s.setReg a (s.reg a) = s := by
  simp [State.setReg, State.reg, Vector.get_eq_getElem]

/-- R120: a CMOV is a write of x[A], with its own value when x[C] is 0. -/
theorem exec_cmov (a b c : RegIdx) (s : State) :
    exec (.cmov a b c) s = .next (advance (s.setReg a (if s.reg c = 0#32 then s.reg a else s.reg b))) := by
  by_cases h : s.reg c = 0#32
  · simp [exec, execCmov, conditionHolds, h, setReg_reg_eq_self]
  · simp [exec, execCmov, conditionHolds, h]

/-- Settles O1: a CMOV writes x[A] and nothing else, and the condition selects the value. -/
theorem cmovMovesWhenConditionNonzero : Obligations.CmovMovesWhenConditionNonzero := by
  unfold Obligations.CmovMovesWhenConditionNonzero
  refine ⟨fun _ => decode_of_opcode_cmov, fun a b c => ?canonical, fun a b c s =>
    ⟨_, exec_cmov a b c s, fun hne => ?moved, fun heq => ?kept, advance_setReg_frame s a _⟩⟩
  case canonical => rw [encode, encode3_toNat (by decide), Nat.zero_mul, Nat.zero_add]
  case moved => rw [if_neg hne, advance_reg, setReg_reg_self]
  case kept => rw [if_pos heq, advance_reg, setReg_reg_self]

end Sys2Proof.Machine
end

section
/-! PROOFS. Segmented load and Segmented store (spec/42_segmented_load_store.md R125, R126): each is its checked access,
and the access decides between the completed instruction and the fault. -/

namespace Sys2Proof.Machine

open Sys2Proof.Claims

/-! ### The end of a handler that made its checks in a shared operation (R107) -/

theorem finish_map_of_ok {α : Type} {x : Except Raise α} {v : α} (h : x = .ok v) (f : α → State) (s : State) :
    finish (x.map f) s = .next (advance (f v)) := by
  subst h; rfl

theorem finish_map_of_error {α : Type} {x : Except Raise α} {r : Raise} (h : x = .error r) (f : α → State) (s : State) :
    ∃ t, finish (x.map f) s = .next t ∧ FaultEntered r.cause.code r.info s t := by
  subst h; exact ⟨_, rfl, enterFault_faultEntered r s⟩

/-! ### Segmented load -/

/-- R125: an SLOAD takes the fault of its checked read. -/
theorem exec_sload_of_memRead_error {a b c : RegIdx} {s : State} {r : Raise}
    (h : memRead s.mem (s.reg b) (s.reg c) = .error r) :
    ∃ t, exec (.sload a b c) s = .next t ∧ FaultEntered r.cause.code r.info s t :=
  finish_map_of_error h _ s

/-- R125: an SLOAD whose checked read gives a Word is a write of that Word to x[A]. -/
theorem exec_sload_of_memRead_ok {a b c : RegIdx} {s : State} {v : Word}
    (h : memRead s.mem (s.reg b) (s.reg c) = .ok v) : exec (.sload a b c) s = .next (advance (s.setReg a v)) :=
  finish_map_of_ok h _ s

/-- Settles O2: the checked read answers in each of its three cases, and SLOAD follows its answer. -/
theorem sloadReadsCheckedWord : Obligations.SloadReadsCheckedWord := by
  unfold Obligations.SloadReadsCheckedWord
  refine ⟨fun _ => decode_of_opcode_sload, encode3_toNat (op := 1) (by decide), fun a b c s =>
    ⟨fun n hn hlt => ?completes, fun hdead => ?dead, fun n hn hle => ?outside⟩⟩
  case completes =>
    obtain ⟨v, hread⟩ := memRead_ok_of_lt_len hn hlt
    exact ⟨_, v, exec_sload_of_memRead_ok hread, hread, setReg_reg_self s a v, advance_setReg_frame s a v⟩
  case dead => exact exec_sload_of_memRead_error (memRead_of_dead hdead _)
  case outside => exact exec_sload_of_memRead_error (memRead_of_len_le hn hle)

/-! ### Segmented store -/

/-- R126: an SSTORE takes the fault of its checked write. -/
theorem exec_sstore_of_memWrite_error {a b c : RegIdx} {s : State} {r : Raise}
    (h : memWrite s.mem (s.reg a) (s.reg b) (s.reg c) = .error r) :
    ∃ t, exec (.sstore a b c) s = .next t ∧ FaultEntered r.cause.code r.info s t :=
  finish_map_of_error h _ s

/-- R126: an SSTORE whose checked write gives a memory puts it in the state. -/
theorem exec_sstore_of_memWrite_ok {a b c : RegIdx} {s : State} {m : Memory}
    (h : memWrite s.mem (s.reg a) (s.reg b) (s.reg c) = .ok m) :
    exec (.sstore a b c) s = .next (advance { s with mem := m }) :=
  finish_map_of_ok h _ s

/-- The frame of an instruction that writes memory: registers, pool, status and ports are kept, and `pc` is one further. -/
theorem advance_with_mem_frame (s : State) (m : Memory) :
    KeepsRegs s (advance { s with mem := m }) ∧ KeepsPool s (advance { s with mem := m }) ∧
      KeepsStatus s (advance { s with mem := m }) ∧ KeepsPorts s (advance { s with mem := m }) ∧
      Advanced s (advance { s with mem := m }) :=
  ⟨fun _ => rfl, ⟨rfl, rfl⟩, ⟨rfl, rfl, rfl⟩, ⟨⟨rfl, rfl⟩, rfl, rfl⟩, advanced_of_pc rfl⟩

/-- Settles O3: the checked write answers in each of its three cases, SSTORE follows its answer, and a write that passes
changes the one Word. -/
theorem sstoreWritesOneWord : Obligations.SstoreWritesOneWord := by
  unfold Obligations.SstoreWritesOneWord
  refine ⟨fun _ => decode_of_opcode_sstore, encode3_toNat (op := 2) (by decide), fun a b c s hwf =>
    ⟨fun n hn hlt => ?completes, fun hdead => ?dead, fun n hn hle => ?outside⟩⟩
  case completes =>
    obtain ⟨m, hwrite⟩ := memWrite_ok_of_lt_len hn (s.reg c) hlt
    exact ⟨_, exec_sstore_of_memWrite_ok hwrite, memRead_memWrite_self hwrite hwf,
      fun _ _ => memRead_memWrite_of_ne hwrite, fun h => ⟨memWrite_live hwrite h, memWrite_len hwrite h⟩,
      advance_with_mem_frame s m⟩
  case dead => exact exec_sstore_of_memWrite_error (memWrite_of_dead hdead _ _)
  case outside => exact exec_sstore_of_memWrite_error (memWrite_of_len_le hn _ hle)

end Sys2Proof.Machine
end

section
/-! PROOFS. Add, Multiply, Divide and NAND (spec/43_arithmetic_logic.md R135 to R141): each completed instruction is a
write of one computed Word, and the Word's own lemma says what was computed. -/

namespace Sys2Proof.Machine

open Sys2Proof.Claims

/-! ### The computed Words (R137, R138, R140) -/

/-- R140: the quotient by a divisor that is not 0 is rounded down: times the divisor it does not pass the dividend, and
one more would. -/
theorem divWords_bounds (b : Word) {c : Word} (hc : c ≠ 0#32) :
    (divWords b c).toNat * c.toNat ≤ b.toNat ∧ b.toNat < ((divWords b c).toNat + 1) * c.toNat := by
  rw [divWords_toNat]
  exact ⟨Nat.div_mul_le_self _ _, Nat.mul_comm _ c.toNat ▸ Nat.lt_mul_div_succ b.toNat (one_le_toNat hc)⟩

/-- R141: NAND works on each of the 32 bit positions; above them the right side is true and the Word has no bit. -/
theorem nandWords_getLsbD (b c : Word) {k : Nat} (hk : k < 32) :
    (nandWords b c).getLsbD k = !(b.getLsbD k && c.getLsbD k) := by
  simp [nandWords, hk]

/-! ### What each instruction answers -/

theorem exec_add (a b c : RegIdx) (s : State) :
    exec (.add a b c) s = .next (advance (s.setReg a (addWords (s.reg b) (s.reg c)))) := rfl

theorem exec_mul (a b c : RegIdx) (s : State) :
    exec (.mul a b c) s = .next (advance (s.setReg a (mulWords (s.reg b) (s.reg c)))) := rfl

theorem exec_nand (a b c : RegIdx) (s : State) :
    exec (.nand a b c) s = .next (advance (s.setReg a (nandWords (s.reg b) (s.reg c)))) := rfl

/-- R137: with a divisor that is not 0, DIV writes the quotient. -/
theorem exec_div_of_ne_zero (a b : RegIdx) {c : RegIdx} {s : State} (hc : s.reg c ≠ 0#32) :
    exec (.div a b c) s = .next (advance (s.setReg a (divWords (s.reg b) (s.reg c)))) :=
  if_neg hc

/-- R137: with the divisor 0, DIV takes DivisionByZero with the dividend. -/
theorem exec_div_of_eq_zero (a b : RegIdx) {c : RegIdx} {s : State} (hc : s.reg c = 0#32) :
    exec (.div a b c) s = .next (enterFault { cause := .divisionByZero, info := s.reg b } s) :=
  if_pos hc

/-! ### The obligations -/

/-- Settles O4: ADD is a write of `addWords` to x[A], and that is the sum modulo 2^32. -/
theorem addWritesSumModulo : Obligations.AddWritesSumModulo := by
  unfold Obligations.AddWritesSumModulo
  refine ⟨fun _ => decode_of_opcode_add, encode3_toNat (op := 3) (by decide), fun a b c s =>
    ⟨_, exec_add a b c s, ?sum, advance_setReg_frame s a _⟩⟩
  case sum => rw [advance_reg, setReg_reg_self, addWords_toNat]

/-- Settles O5: MUL is a write of `mulWords` to x[A], and that is the product modulo 2^32. -/
theorem mulWritesProductModulo : Obligations.MulWritesProductModulo := by
  unfold Obligations.MulWritesProductModulo
  refine ⟨fun _ => decode_of_opcode_mul, encode3_toNat (op := 4) (by decide), fun a b c s =>
    ⟨_, exec_mul a b c s, ?product, advance_setReg_frame s a _⟩⟩
  case product => rw [advance_reg, setReg_reg_self, mulWords_toNat]

/-- Settles O6: the divisor selects between the write of the quotient, which its two bounds pin, and the fault entry. -/
theorem divWritesQuotientOrFaults : Obligations.DivWritesQuotientOrFaults := by
  unfold Obligations.DivWritesQuotientOrFaults
  refine ⟨fun _ => decode_of_opcode_div, encode3_toNat (op := 5) (by decide), fun a b c s =>
    ⟨fun hne => ?quotient, fun hzero => ?fault⟩⟩
  case quotient =>
    obtain ⟨hle, hlt⟩ := divWords_bounds (s.reg b) hne
    refine ⟨_, exec_div_of_ne_zero a b hne, ?_, ?_, advance_setReg_frame s a _⟩
    · rwa [advance_reg, setReg_reg_self]
    · rwa [advance_reg, setReg_reg_self]
  case fault => exact ⟨_, exec_div_of_eq_zero a b hzero, enterFault_faultEntered _ s⟩

/-- Settles O7: NAND is a write of `nandWords` to x[A], which is the complement of the AND bit by bit. -/
theorem nandComplementsEachBit : Obligations.NandComplementsEachBit := by
  unfold Obligations.NandComplementsEachBit
  refine ⟨fun _ => decode_of_opcode_nand, encode3_toNat (op := 6) (by decide), fun a b c s =>
    ⟨_, exec_nand a b c s, fun k hk => ?bit, advance_setReg_frame s a _⟩⟩
  case bit => rw [advance_reg, setReg_reg_self, nandWords_getLsbD _ _ hk]

end Sys2Proof.Machine
end

section
/-! PROOFS. Halt (spec/44_halt.md R150): the run state, the program counter, and the release of all segments (R39). -/

namespace Sys2Proof.Machine

open Sys2Proof.Claims

/-- R39: after the release of all segments, segment 0 included, no handle is live. -/
theorem nothingLive_releaseAll (s : State) : NothingLive (releaseAll s) := fun h => by
  rw [releaseAll_mem, live_nil]

/-- R150: HALT answers in every state, with no check before it. -/
theorem exec_halt (s : State) : exec .halt s = .next (releaseAll (advance { s with run := .halted })) := rfl

/-- The frame of HALT: `pc` is one further, and the registers, the fault registers, the pool and the ports are kept. -/
theorem releaseAll_advance_with_run_frame (s : State) (r : RunState) :
    let t := releaseAll (advance { s with run := r })
    Advanced s t ∧ KeepsRegs s t ∧ t.fcause = s.fcause ∧ t.finfo = s.finfo ∧ KeepsPool s t ∧ KeepsPorts s t :=
  ⟨advanced_of_pc rfl, fun _ => rfl, rfl, rfl, ⟨rfl, rfl⟩, ⟨⟨rfl, rfl⟩, rfl, rfl⟩⟩

/-- Settles O8: HALT sets the run state, advances and releases all segments, and none of the three touches the rest. -/
theorem haltReleasesAndStops : Obligations.HaltReleasesAndStops := by
  unfold Obligations.HaltReleasesAndStops
  refine ⟨fun _ => decode_of_opcode_halt, ?canonical, fun s =>
    ⟨_, exec_halt s, ?ended, nothingLive_releaseAll _, releaseAll_advance_with_run_frame s .halted⟩⟩
  case canonical => decide
  case ended => rw [NormalEnd, releaseAll_run, advance_run]

end Sys2Proof.Machine
end

section
/-! PROOFS. Map segment and Unmap segment (spec/45_map_unmap.md R155 to R158): the state each leaves where it completes,
the fault otherwise, and the order in which the pool hands its handles out. -/

namespace Sys2Proof.Machine

open Sys2Proof.Claims

/-! ### Shared by Map and Unmap -/

theorem live_congr {m m' : Memory} {h : Word} (e : Memory.seg m' h = Memory.seg m h) :
    Memory.live m' h = Memory.live m h := by simp [Memory.live, e]

/-- A table that holds the same under every handle but `h` keeps every segment but `h`. -/
theorem keepsOtherSegments_of_seg {h : Word} {s t : State}
    (e : ∀ h' : Word, h' ≠ h → Memory.seg t.mem h' = Memory.seg s.mem h') : KeepsOtherSegments h s t :=
  fun h' hne => ⟨live_congr (e h' hne), len_congr (e h' hne), memRead_congr (e h' hne)⟩

/-! ### The handle a Map takes (R36, R155) -/

theorem handleToHandOut_of_cons {s : State} {top : Word} {rest : List Word} (hf : s.free = top :: rest) :
    handleToHandOut s = top := by
  simp [handleToHandOut, hf]

theorem takeHandle_of_cons {s : State} {top : Word} {rest : List Word} (hf : s.free = top :: rest) :
    takeHandle s = { s with free := rest } := by
  simp [takeHandle, hf]

theorem takeHandle_of_nil {s : State} (hf : s.free = []) :
    takeHandle s = { s with nextHandle := s.nextHandle + 1 } := by
  simp [takeHandle, hf]

/-- R155: the handle is not 0, because it is not live and handle 0 is. -/
theorem handleToHandOut_ne_zero {s : State} {n : Word} (hinv : TableInv s) (hr : mapRefused s n = false) :
    handleToHandOut s ≠ 0#32 := by
  intro h0
  have hdead : Memory.live s.mem (handleToHandOut s) = false := handleToHandOut_not_live hinv hr
  simp [h0, hinv.programLive] at hdead

/-! ### Map -/

/-- R155: the state after a Map that is not refused. -/
def mapped (b c : RegIdx) (s : State) : State :=
  advance (State.setReg { takeHandle s with
    mem := Memory.setSeg s.mem (handleToHandOut s) (Segment.zeroed (s.reg c)) } b (handleToHandOut s))

theorem exec_map_of_not_refused {b c : RegIdx} {s : State} (hr : mapRefused s (s.reg c) = false) :
    exec (.map b c) s = .next (mapped b c s) :=
  finish_map_of_ok (segMap_ok_iff.2 ⟨hr, rfl, rfl⟩) _ s

theorem eq_mapped_of_exec {b c : RegIdx} {s t : State} (hr : mapRefused s (s.reg c) = false)
    (h : exec (.map b c) s = .next t) : t = mapped b c s :=
  Host.Outcome.next.inj (h.symm.trans (exec_map_of_not_refused hr))

@[simp] theorem mapped_free (b c : RegIdx) (s : State) : (mapped b c s).free = (takeHandle s).free := rfl
@[simp] theorem mapped_nextHandle (b c : RegIdx) (s : State) :
    (mapped b c s).nextHandle = (takeHandle s).nextHandle := rfl

@[simp] theorem mapped_capacity (b c : RegIdx) (s : State) : (mapped b c s).capacity = s.capacity :=
  takeHandle_capacity s
@[simp] theorem mapped_reg_self (b c : RegIdx) (s : State) : (mapped b c s).reg b = handleToHandOut s :=
  setReg_reg_self ..

/-- R155: with a handle in the pool, Map pops the top one. -/
theorem mapped_of_cons (b c : RegIdx) {s : State} {top : Word} {rest : List Word} (hf : s.free = top :: rest) :
    (mapped b c s).reg b = top ∧ (mapped b c s).free = rest ∧ (mapped b c s).nextHandle = s.nextHandle := by
  simp [handleToHandOut_of_cons hf, takeHandle_of_cons hf]

/-- R155: with an empty pool, Map takes `next`. -/
theorem mapped_of_nil (b : RegIdx) {c : RegIdx} {s : State} (hr : mapRefused s (s.reg c) = false) (hf : s.free = []) :
    ((mapped b c s).reg b).toNat = s.nextHandle ∧ (mapped b c s).free = [] ∧
      (mapped b c s).nextHandle = s.nextHandle + 1 := by
  simp [handleToHandOut_toNat hr hf, takeHandle_of_nil hf, hf]

/-- R36: the segment a Map creates is live, x[C] Words long, and reads 0 at every offset. -/
theorem mapped_segment (b c : RegIdx) (s : State) :
    Memory.live (mapped b c s).mem (handleToHandOut s) = true ∧
      Memory.len (mapped b c s).mem (handleToHandOut s) = some (s.reg c) ∧
      ∀ o : Word, o.toNat < (s.reg c).toNat → memRead (mapped b c s).mem (handleToHandOut s) o = .ok 0#32 := by
  have hseg : Memory.seg (mapped b c s).mem (handleToHandOut s) = some (Segment.zeroed (s.reg c)) := seg_setSeg_self ..
  exact ⟨live_iff.2 ⟨_, hseg⟩, len_some_iff.2 ⟨_, hseg, rfl⟩, fun o ho => memRead_ok_iff.2 ⟨_, hseg, ho, rfl⟩⟩

/-- The frame of a Map: every other segment, every other register, the status and the ports are kept, and `pc` is one
further. -/
theorem mapped_frame (b c : RegIdx) (s : State) :
    KeepsOtherSegments (handleToHandOut s) s (mapped b c s) ∧ KeepsRegsBut b s (mapped b c s) ∧
      KeepsStatus s (mapped b c s) ∧ KeepsPorts s (mapped b c s) ∧ Advanced s (mapped b c s) := by
  refine ⟨keepsOtherSegments_of_seg fun _ hne => seg_setSeg_of_ne s.mem _ hne, fun r hne => ?regs, ?status, ?ports,
    advanced_of_pc ?pc⟩
  case regs => exact (setReg_reg_of_ne _ _ hne).trans (takeHandle_reg s r)
  case status => simp [KeepsStatus, mapped]
  case ports => simp [KeepsPorts, KeepsInput, mapped]
  case pc => simp [mapped]

/-- Settles O9: the state a Map leaves, with its handle from the pool or from `next`, and the fault of a refused Map. -/
theorem mapCreatesZeroedSegment : Obligations.MapCreatesZeroedSegment := by
  unfold Obligations.MapCreatesZeroedSegment
  refine ⟨fun _ => decode_of_opcode_map, encode3_toNat (op := 8) (by decide) 0, fun b c s =>
    ⟨fun hr => ?completes, fun hr => ⟨_, execMap_of_refused hr, enterFault_faultEntered _ s⟩⟩⟩
  case completes =>
    obtain ⟨hlive, hlen, hread⟩ := mapped_segment b c s
    refine ⟨mapped b c s, handleToHandOut s, exec_map_of_not_refused hr, mapped_reg_self b c s,
      fun top rest hf => ?pooled, fun hf => ?fresh,
      fun hinv => ⟨handleToHandOut_ne_zero hinv hr, handleToHandOut_not_live hinv hr⟩,
      hlive, hlen, hread, mapped_frame b c s⟩
    case pooled => exact mapped_reg_self b c s ▸ mapped_of_cons b c hf
    case fresh => exact mapped_reg_self b c s ▸ mapped_of_nil b hr hf

/-! ### Unmap -/

/-- R158: the state after an Unmap of a live handle that is not 0. -/
def unmapped (c : RegIdx) (s : State) : State :=
  advance { s with mem := Memory.drop s.mem (s.reg c), free := s.reg c :: s.free }

theorem exec_unmap_of_live {c : RegIdx} {s : State} (h0 : s.reg c ≠ 0#32) (hl : Memory.live s.mem (s.reg c) = true) :
    exec (.unmap c) s = .next (unmapped c s) := by
  have hok := segUnmap_ok_iff.2 ⟨h0, hl, rfl⟩
  simp only [exec, execUnmap, hok, finish, unmapped]

theorem exec_unmap_of_zero_or_dead {c : RegIdx} {s : State} (hb : s.reg c = 0#32 ∨ Memory.live s.mem (s.reg c) = false) :
    exec (.unmap c) s = .next (enterFault { cause := .unmappedSegmentAccess, info := s.reg c } s) := by
  simp only [exec, execUnmap, segUnmap_eq_error hb, finish, raise]

/-- The frame of an Unmap: every other segment, every register, the status and the ports are kept, and `pc` is one
further. -/
theorem unmapped_frame (c : RegIdx) (s : State) :
    KeepsOtherSegments (s.reg c) s (unmapped c s) ∧ KeepsRegs s (unmapped c s) ∧ KeepsStatus s (unmapped c s) ∧
      KeepsPorts s (unmapped c s) ∧ Advanced s (unmapped c s) :=
  ⟨keepsOtherSegments_of_seg fun _ hne => seg_drop_of_ne s.mem hne, fun _ => rfl, ⟨rfl, rfl, rfl⟩,
    ⟨⟨rfl, rfl⟩, rfl, rfl⟩, advanced_of_pc rfl⟩

/-- Settles O10: the check of Unmap selects between the state with the handle released and the fault entry. -/
theorem unmapReleasesOrFaults : Obligations.UnmapReleasesOrFaults := by
  unfold Obligations.UnmapReleasesOrFaults
  refine ⟨fun _ => decode_of_opcode_unmap, encode3_toNat (op := 9) (by decide) 0 0, fun c s hwf =>
    ⟨fun h0 hl => ?released, fun hb => ⟨_, exec_unmap_of_zero_or_dead hb, enterFault_faultEntered _ s⟩⟩⟩
  case released =>
    have hdead : Memory.live (unmapped c s).mem (s.reg c) = false := live_false_iff.2 (seg_drop_self hwf _)
    exact ⟨_, exec_unmap_of_live h0 hl, hdead, rfl, rfl, unmapped_frame c s⟩

/-! ### The order of the handles (R156) -/

/-- A machine with the default capacity, the pool `free` and the counter `next`: all that decides which handle its next
Map returns. -/
structure PoolIs (free : List Word) (next : Nat) (s : State) : Prop where
  capacity : s.capacity = .handlesOnly
  free : s.free = free
  nextHandle : s.nextHandle = next

/-- With the default capacity, a Map is not refused while a handle is pooled or `next` is below 2^32 (R40). -/
theorem PoolIs.not_refused {free : List Word} {next : Nat} {s : State} (hp : PoolIs free next s)
    (h : free ≠ [] ∨ next < 2 ^ 32) (n : Word) : mapRefused s n = false := by
  rw [mapRefused_handlesOnly hp.capacity, hp.free, hp.nextHandle, Bool.and_eq_false_iff]
  exact h.imp (by simp) (by simp)

/-- R156: a Map returns the top of the pool and pops it. -/
theorem PoolIs.map_cons {top : Word} {rest : List Word} {next : Nat} {s t : State} {b c : RegIdx}
    (hp : PoolIs (top :: rest) next s) (h : exec (.map b c) s = .next t) : t.reg b = top ∧ PoolIs rest next t := by
  obtain rfl := eq_mapped_of_exec (hp.not_refused (.inl (List.cons_ne_nil _ _)) _) h
  obtain ⟨hreg, hfree, hnext⟩ := mapped_of_cons b c hp.free
  exact ⟨hreg, (mapped_capacity b c s).trans hp.capacity, hfree, hnext.trans hp.nextHandle⟩

/-- R156: a Map with an empty pool returns `next` and counts it up. -/
theorem PoolIs.map_nil {next : Nat} {s t : State} {b c : RegIdx} (hp : PoolIs [] next s) (hlt : next < 2 ^ 32)
    (h : exec (.map b c) s = .next t) : (t.reg b).toNat = next ∧ PoolIs [] (next + 1) t := by
  have hr := hp.not_refused (.inr hlt) (s.reg c)
  obtain rfl := eq_mapped_of_exec hr h
  obtain ⟨hreg, hfree, hnext⟩ := mapped_of_nil b hr hp.free
  obtain rfl := hp.nextHandle
  exact ⟨hreg, (mapped_capacity b c s).trans hp.capacity, hfree, hnext⟩

/-- R156: an Unmap that does not fault pushes x[C] on the pool. -/
theorem PoolIs.unmap {free : List Word} {next : Nat} {s t : State} {c : RegIdx} (hp : PoolIs free next s)
    (h : exec (.unmap c) s = .next t) (hrun : t.run = .running) : KeepsRegs s t ∧ PoolIs (s.reg c :: free) next t := by
  cases exec_effect h with
  | fault r _ => simp at hrun
  | wrote a v hw => simp [writtenRegister] at hw
  | unmapped _ _ _ => exact ⟨fun _ => rfl, hp.capacity, congrArg _ hp.free, hp.nextHandle⟩

theorem poolIs_launch {program : List Word} {input : List Byte} {e : Bool} {s : State}
    (h : launch program input e .handlesOnly = some s) : PoolIs [] 1 s := by
  obtain ⟨-, rfl⟩ := launch_eq_some_iff.1 h
  exact ⟨rfl, rfl, rfl⟩

/-- Settles O42, by following the pool and `next` through the Maps and Unmaps. -/
theorem handlesReusedLastReleasedFirst : Obligations.HandlesReusedLastReleasedFirst := by
  unfold Obligations.HandlesReusedLastReleasedFirst
  constructor
  case left =>
    intro program input e b c1 c2 c3 s s1 s2 s3 hs h1 h2 h3
    obtain ⟨r1, p1⟩ := (poolIs_launch hs).map_nil (by decide) h1
    obtain ⟨r2, p2⟩ := p1.map_nil (by decide) h2
    obtain ⟨r3, -⟩ := p2.map_nil (by decide) h3
    exact ⟨BitVec.eq_of_toNat_eq r1, BitVec.eq_of_toNat_eq r2, BitVec.eq_of_toNat_eq r3⟩
  case right =>
    intro c c' b n s t u v w x _ _ hcap ht htrun hu hurun hv hw hx
    have p0 : PoolIs s.free s.nextHandle s := ⟨hcap, rfl, rfl⟩
    obtain ⟨hregs, p1⟩ := p0.unmap ht htrun
    obtain ⟨-, p2⟩ := p1.unmap hu hurun
    obtain ⟨htop, p3⟩ := p2.map_cons hv
    obtain ⟨hsecond, p4⟩ := p3.map_cons hw
    refine ⟨htop.trans (hregs c'), hsecond, fun hf hlt => ?_⟩
    rw [hf] at p4
    exact (p4.map_nil hlt hx).1

end Sys2Proof.Machine
end

section
/-! PROOFS. Output and Input (spec/46_output_input.md R170, R172): the value selects between the byte written and the fault,
and the item at the input port selects what Input writes, or that it waits. -/

namespace Sys2Proof.Machine

open Sys2Proof.Claims

/-! ### Output -/

/-- R170: below 256, OUT appends the byte x[C]. -/
theorem exec_out_of_lt {c : RegIdx} {s : State} (h : (s.reg c).toNat < 256) :
    exec (.out c) s = .next (advance (putOutput s (lowByte (s.reg c)))) :=
  if_neg (Nat.not_le.2 h)

/-- R170: from 256 on, OUT takes InvalidOutputValue with x[C]. -/
theorem exec_out_of_le {c : RegIdx} {s : State} (h : 256 ≤ (s.reg c).toNat) :
    exec (.out c) s = .next (enterFault { cause := .invalidOutputValue, info := s.reg c } s) :=
  if_pos h

/-- The frame of an OUT that completes: all but the output stream is kept, and `pc` is one further. -/
theorem advance_putOutput_frame (s : State) (b : Byte) :
    let t := advance (putOutput s b)
    KeepsRegs s t ∧ KeepsMemory s t ∧ KeepsPool s t ∧ KeepsStatus s t ∧ KeepsInput s t ∧ t.capacity = s.capacity ∧
      Advanced s t :=
  ⟨fun _ => rfl, keepsMemory_of_eq rfl, ⟨rfl, rfl⟩, ⟨rfl, rfl, rfl⟩, ⟨rfl, rfl⟩, rfl, advanced_of_pc rfl⟩

/-- Settles O11: the bound 256 selects between the byte written, which is x[C] itself, and the fault entry. -/
theorem outAppendsByteOrFaults : Obligations.OutAppendsByteOrFaults := by
  unfold Obligations.OutAppendsByteOrFaults
  refine ⟨fun _ => decode_of_opcode_out, encode3_toNat (op := 10) (by decide) 0 0, fun c s =>
    ⟨fun hlt => ?written, fun hle => ?fault⟩⟩
  case written => exact ⟨_, _, exec_out_of_lt hlt, rfl, lowByte_toNat hlt, advance_putOutput_frame s _⟩
  case fault => exact ⟨_, exec_out_of_le hle, enterFault_faultEntered _ s⟩

/-! ### Input -/

/-- The frame of an IN that takes a byte: `rest` is what is left at the port, and all else but register `c` is kept. -/
theorem advance_setReg_with_input_frame (s : State) (rest : List Byte) (c : RegIdx) (v : Word) :
    let t := advance (State.setReg { s with input := rest } c v)
    t.input = rest ∧ t.inputEnd = s.inputEnd ∧ t.out = s.out ∧ t.capacity = s.capacity ∧ KeepsRegsBut c s t ∧
      KeepsMemory s t ∧ KeepsPool s t ∧ KeepsStatus s t ∧ Advanced s t :=
  ⟨rfl, rfl, rfl, rfl, fun _ hne => setReg_reg_of_ne s v hne, keepsMemory_of_eq rfl, ⟨rfl, rfl⟩, ⟨rfl, rfl, rfl⟩,
    advanced_of_pc rfl⟩

/-- Settles O12: a byte and `end` are each a write of x[C], and with neither at the port IN answers its own state. -/
theorem inTakesByteOrSentinel : Obligations.InTakesByteOrSentinel := by
  unfold Obligations.InTakesByteOrSentinel
  refine ⟨fun _ => decode_of_opcode_inp, encode3_toNat (op := 11) (by decide) 0 0, fun c s =>
    ⟨fun b rest hin => ⟨_, execInp_of_byte hin c, ?byte, advance_setReg_with_input_frame s rest c _⟩,
      fun hin hend => ⟨_, execInp_of_end hin hend c, ?sentinel, advance_setReg_frame s c _⟩,
      fun hin hwait => execInp_of_waiting hin hwait c⟩⟩
  case byte => rw [advance_reg, setReg_reg_self, zextByte_toNat]
  case sentinel => rw [advance_reg, setReg_reg_self, allOnes_toNat]

end Sys2Proof.Machine
end

section
/-! PROOFS. Load program (spec/47_load_program.md R180, R181): the two checks, the jump that follows when both pass, and
the program it finds at handle 0. -/

namespace Sys2Proof.Machine

open Sys2Proof.Claims

/-! ### The checks (R180, R181) -/

/-- R180: a dead handle that is not 0 faults, whatever the target. -/
theorem exec_loadp_of_dead {b : RegIdx} (c : RegIdx) {s : State} (h0 : s.reg b ≠ 0#32)
    (hdead : Memory.live s.mem (s.reg b) = false) :
    exec (.loadp b c) s = .next (enterFault { cause := .unmappedSegmentAccess, info := s.reg b } s) := by
  have hlen : Memory.len s.mem (s.reg b) = none := by simp [Memory.len, live_false_iff.1 hdead]
  simp only [exec, execLoadp, hlen, if_neg h0, raise]

section Live

variable {b c : RegIdx} {s : State} {n : Word} (hn : Memory.len s.mem (s.reg b) = some n)
include hn

/-- R181: a target at or above the length segment 0 is about to have faults. -/
theorem exec_loadp_of_len_le (hle : n.toNat ≤ (s.reg c).toNat) :
    exec (.loadp b c) s = .next (enterFault { cause := .invalidProgramCounter, info := s.reg c } s) := by
  simp only [exec, execLoadp, hn, if_pos hle, raise]

/-- R180: with both checks passed, LOADP is the jump. -/
theorem exec_loadp_of_lt_len (hlt : (s.reg c).toNat < n.toNat) :
    exec (.loadp b c) s = jumpInto (s.reg b) (s.reg c) s := by
  simp only [exec, execLoadp, hn, if_neg (Nat.not_le.2 hlt)]

end Live

/-! ### The jump (R38, R180) -/

theorem jumpInto_zero (target : Word) (s : State) : jumpInto 0#32 target s = .next { s with pc := target } := if_pos rfl

theorem keepsRest_with_pc (s : State) (target : Word) : KeepsRest s { s with pc := target } :=
  ⟨keepsMemory_of_eq rfl, ⟨rfl, rfl⟩, ⟨rfl, rfl, rfl⟩, ⟨rfl, rfl⟩, rfl, rfl⟩

/-- R180: the state after a jump into a program that is a copy of the segment `g`. -/
def programReplaced (g : Segment) (target : Word) (s : State) : State :=
  { s with mem := Memory.setSeg s.mem 0#32 g, pc := target }

theorem jumpInto_of_seg {h : Word} {g : Segment} {s : State} (h0 : h ≠ 0#32) (hg : Memory.seg s.mem h = some g)
    (target : Word) : jumpInto h target s = .next (programReplaced g target s) := by
  have hcopy := segLoadProgram_ok_iff.2 ⟨g, hg, rfl⟩
  simp only [jumpInto, if_neg h0, hcopy, programReplaced]

theorem programReplaced_seg_zero (g : Segment) (target : Word) (s : State) :
    Memory.seg (programReplaced g target s).mem 0#32 = some g :=
  seg_setSeg_self s.mem 0#32 g

/-- The frame of a jump into a replaced program: every segment but 0, the registers, the pool, the status and the ports
are kept. -/
theorem programReplaced_frame (g : Segment) (target : Word) (s : State) :
    KeepsOtherSegments 0#32 s (programReplaced g target s) ∧ KeepsRegs s (programReplaced g target s) ∧
      KeepsPool s (programReplaced g target s) ∧ KeepsStatus s (programReplaced g target s) ∧
      KeepsPorts s (programReplaced g target s) :=
  ⟨keepsOtherSegments_of_seg fun _ hne => seg_setSeg_of_ne s.mem g hne, fun _ => rfl, ⟨rfl, rfl⟩, ⟨rfl, rfl, rfl⟩,
    ⟨rfl, rfl⟩, rfl, rfl⟩

/-- Settles O13: the checks of LOADP select between the two faults and the jump, and x[B] selects the program. -/
theorem loadpReplacesProgramAndJumps : Obligations.LoadpReplacesProgramAndJumps := by
  unfold Obligations.LoadpReplacesProgramAndJumps
  refine ⟨fun _ => decode_of_opcode_loadp, encode3_toNat (op := 12) (by decide) 0, fun b c s =>
    ⟨fun n h0 hn hlt => ?jumps, fun n h0 hn hlt => ?replaces,
      fun h0 hdead => ⟨_, exec_loadp_of_dead c h0 hdead, enterFault_faultEntered _ s⟩,
      fun n hn hle => ⟨_, exec_loadp_of_len_le hn hle, enterFault_faultEntered _ s⟩⟩⟩
  case jumps =>
    have hexec : exec (.loadp b c) s = .next { s with pc := s.reg c } := by
      rw [exec_loadp_of_lt_len (h0.symm ▸ hn) hlt, h0, jumpInto_zero]
    exact ⟨_, hexec, rfl, fun _ => rfl, keepsRest_with_pc s _⟩
  case replaces =>
    obtain ⟨g, hg, hlen⟩ := len_some_iff.1 hn
    have hprog := programReplaced_seg_zero g (s.reg c) s
    exact ⟨_, (exec_loadp_of_lt_len hn hlt).trans (jumpInto_of_seg h0 hg _), rfl, len_some_iff.2 ⟨g, hprog, hlen⟩,
      memRead_eq_of_seg hg hprog, programReplaced_frame g _ s⟩

end Sys2Proof.Machine
end

section
/-! PROOFS. The machine's invariant (spec/10_state.md R35, R39; spec/60_exceptions.md R206, R210): the segment table and the
program counter under each effect of an instruction, and the three ways an instruction can end. -/

namespace Sys2Proof.Machine

open Sys2Proof.Claims

/-! ### The segment table (R34, R35) -/

/-- The table's invariants speak of liveness, the pool and `next` only. -/
theorem TableInv.congr {s t : State} (hinv : TableInv s) (hlive : ∀ h, Memory.live t.mem h = Memory.live s.mem h)
    (hfree : t.free = s.free) (hnext : t.nextHandle = s.nextHandle) : TableInv t := by
  constructor <;> simp only [hlive, hfree, hnext]
  exacts [hinv.programLive, hinv.handedOut, hinv.poolOnce, hinv.notYet, hinv.zeroNotPooled, hinv.nextPositive,
    hinv.nextBounded]

/-- R35: a pooled handle has been handed out. -/
theorem TableInv.lt_next_of_pooled {s : State} (hinv : TableInv s) {h : Word} (hmem : h ∈ s.free) :
    h.toNat < s.nextHandle :=
  Nat.lt_of_not_le fun hle => (hinv.notYet h hle).2 hmem

/-- R35: a live handle is below `next`. -/
theorem TableInv.lt_next_of_live {s : State} (hinv : TableInv s) {h : Word} (hl : Memory.live s.mem h = true) :
    h.toNat < s.nextHandle :=
  Nat.lt_of_not_le fun hle => by simp [(hinv.notYet h hle).1] at hl

/-- R35: a live handle other than 0 is not pooled. -/
theorem TableInv.not_pooled_of_live {s : State} (hinv : TableInv s) {h : Word} (h0 : h ≠ 0#32)
    (hl : Memory.live s.mem h = true) : h ∉ s.free :=
  (hinv.handedOut h (one_le_toNat h0) (hinv.lt_next_of_live hl)).1 hl

theorem mapped_live (b c : RegIdx) (s : State) (h : Word) :
    Memory.live (mapped b c s).mem h = if h = handleToHandOut s then true else Memory.live s.mem h :=
  live_setSeg s.mem (handleToHandOut s) h _

/-- R36: a Map that pops the pool keeps the table's invariants. -/
theorem TableInv.map_cons {s : State} (hinv : TableInv s) {top : Word} {rest : List Word}
    (hf : s.free = top :: rest) (b c : RegIdx) : TableInv (mapped b c s) := by
  obtain ⟨-, hfree, hnext⟩ := mapped_of_cons b c hf
  have hlive := mapped_live b c s
  rw [handleToHandOut_of_cons hf] at hlive
  have htop : top.toNat < s.nextHandle := hinv.lt_next_of_pooled (by simp [hf])
  obtain ⟨hprog, hout, hnodup, hyet, hzero, hpos, hbound⟩ := hinv
  rw [hf] at hout hnodup hyet hzero
  obtain ⟨htopRest, hrest⟩ := List.nodup_cons.1 hnodup
  refine ⟨?prog, fun h h1 h2 => ?out, ?once, fun h hle => ?yet, ?zero, ?pos, ?bound⟩
  case prog => simp [hlive, hprog]
  case out =>
    rw [hlive, hfree]
    by_cases hh : h = top
    · simp [hh, htopRest]
    · simpa [hh] using hout h h1 (hnext ▸ h2)
  case once => rwa [hfree]
  case yet =>
    rw [hnext] at hle
    obtain ⟨hdead, hnot⟩ := hyet h hle
    have hh : h ≠ top := by rintro rfl; omega
    rw [hlive, if_neg hh, hfree]
    exact ⟨hdead, fun hr => hnot (List.mem_cons_of_mem _ hr)⟩
  case zero => rw [hfree]; exact fun hr => hzero (List.mem_cons_of_mem _ hr)
  case pos => rwa [hnext]
  case bound => rwa [hnext]

/-- R36: a Map that takes `next` keeps the table's invariants. -/
theorem TableInv.map_nil {s : State} (hinv : TableInv s) (b : RegIdx) {c : RegIdx}
    (hr : mapRefused s (s.reg c) = false) (hf : s.free = []) : TableInv (mapped b c s) := by
  obtain ⟨-, hfree, hnext⟩ := mapped_of_nil b hr hf
  have hlive := mapped_live b c s
  have hhandle : (handleToHandOut s).toNat = s.nextHandle := handleToHandOut_toNat hr hf
  have hlt : s.nextHandle < 2 ^ 32 := nextHandle_lt_of_not_refused hr hf
  obtain ⟨hprog, hout, -, hyet, -, hpos, -⟩ := hinv
  rw [hf] at hout
  refine ⟨?prog, fun h h1 h2 => ?out, ?once, fun h hle => ?yet, ?zero, ?pos, ?bound⟩
  case prog => simp [hlive, hprog]
  case out =>
    rw [hlive, hfree]
    by_cases hh : h = handleToHandOut s
    · simp [hh]
    · have hne : h.toNat ≠ s.nextHandle := fun e => hh (BitVec.eq_of_toNat_eq (e.trans hhandle.symm))
      simpa [hh] using hout h h1 (by omega)
  case once => rw [hfree]; exact List.nodup_nil
  case yet =>
    have hh : h ≠ handleToHandOut s := by rintro rfl; omega
    rw [hlive, if_neg hh, hfree]
    exact ⟨(hyet h (by omega)).1, List.not_mem_nil⟩
  case zero => rw [hfree]; exact List.not_mem_nil
  case pos => omega
  case bound => omega

/-- R36: a Map keeps the table's invariants, wherever its handle comes from. -/
theorem TableInv.map {s : State} (hinv : TableInv s) (b : RegIdx) {c : RegIdx}
    (hr : mapRefused s (s.reg c) = false) : TableInv (mapped b c s) := by
  cases hf : s.free with
  | nil => exact hinv.map_nil b hr hf
  | cons top rest => exact hinv.map_cons hf b c

/-- R37: an Unmap keeps the table's invariants. -/
theorem TableInv.unmap {s : State} (hinv : TableInv s) (hm : Memory.wf s.mem = true) {c : RegIdx}
    (h0 : s.reg c ≠ 0#32) (hl : Memory.live s.mem (s.reg c) = true) : TableInv (unmapped c s) := by
  have hlive : ∀ h, Memory.live (unmapped c s).mem h = if h = s.reg c then false else Memory.live s.mem h :=
    live_drop hm (s.reg c)
  have hfree : (unmapped c s).free = s.reg c :: s.free := rfl
  have hlt : (s.reg c).toNat < s.nextHandle := hinv.lt_next_of_live hl
  have hfresh : s.reg c ∉ s.free := hinv.not_pooled_of_live h0 hl
  obtain ⟨hprog, hout, hnodup, hyet, hzero, hpos, hbound⟩ := hinv
  refine ⟨?prog, fun h h1 h2 => ?out, ?once, fun h hle => ?yet, ?zero, hpos, hbound⟩
  case prog => rwa [hlive, if_neg (Ne.symm h0)]
  case out =>
    rw [hlive, hfree]
    by_cases hh : h = s.reg c
    · simp [hh]
    · simpa [hh] using hout h h1 h2
  case once => rw [hfree]; exact List.nodup_cons.2 ⟨hfresh, hnodup⟩
  case yet =>
    have hle : s.nextHandle ≤ h.toNat := hle
    have hh : h ≠ s.reg c := by rintro rfl; omega
    obtain ⟨hdead, hnot⟩ := hyet h hle
    rw [hlive, if_neg hh, hfree]
    exact ⟨hdead, fun hr => (List.mem_cons.1 hr).elim hh hnot⟩
  case zero => rw [hfree]; exact fun hr => (List.mem_cons.1 hr).elim (Ne.symm h0) hzero

/-- R35: an effect that leaves the machine Running keeps the table's invariants. -/
theorem ExecEffect.tableInv {i : Instr} {s t : State} (he : ExecEffect i s t) (hm : Memory.wf s.mem = true)
    (hinv : TableInv s) (ht : t.run = .running) : TableInv t := by
  cases he with
  | fault => simp at ht
  | halted => simp at ht
  | stored a b c m hw => exact hinv.congr (memWrite_live hw) rfl rfl
  | mapped b c hr => exact hinv.map b hr
  | unmapped c h0 hl => exact hinv.unmap hm h0 hl
  | replaced b c g h0 hg _ =>
    refine hinv.congr (fun h => ?_) rfl rfl
    rw [live_setSeg]
    split
    · next hh => rw [hh, hinv.programLive]
    · rfl
  | _ => exact hinv.congr (fun h => rfl) rfl rfl

/-! ### The canonical form of memory (log 6) -/

theorem ExecEffect.memory_wf {i : Instr} {s t : State} (he : ExecEffect i s t) (hm : Memory.wf s.mem = true) :
    Memory.wf t.mem = true := by
  cases he with
  | fault | halted => exact nil_wf
  | stored a b c m hw => exact memWrite_wf hm hw
  | mapped b c hr => exact setSeg_wf hm _ (zeroed_wf _)
  | unmapped c _ _ => exact drop_wf hm _
  | replaced b c g _ hg _ => exact setSeg_wf hm _ (seg_wf hm hg)
  | _ => exact hm

/-! ### The program counter (R206) -/

/-- R25: from inside a segment, one further is at most just past its end, and does not wrap. -/
theorem advance_pc_le_of_lt {s : State} {n : Word} (h : s.pc.toNat < n.toNat) : (advance s).pc.toNat ≤ n.toNat := by
  have := n.isLt
  rw [advance_pc_toNat (by omega)]
  exact h

/-- R206: from a fetched Word, an effect that leaves the machine Running leaves `pc` in segment 0 or just past it. -/
theorem ExecEffect.pcInv {i : Instr} {s t : State} (he : ExecEffect i s t) (hinv : TableInv s)
    {n : Word} (hlen : Memory.len s.mem 0#32 = some n) (hlt : s.pc.toNat < n.toNat)
    (ht : t.run = .running) : PcInv t := by
  have hpc : (advance s).pc.toNat ≤ n.toNat := advance_pc_le_of_lt hlt
  cases he with
  | fault => simp at ht
  | halted => simp at ht
  | stored a b c m hw => exact ⟨n, (memWrite_len hw _).trans hlen, hpc⟩
  | mapped b c hr =>
    have hkept := len_congr (seg_setSeg_of_ne s.mem (Segment.zeroed (s.reg c)) (handleToHandOut_ne_zero hinv hr).symm)
    exact ⟨n, hkept.trans hlen, by simpa using hpc⟩
  | unmapped c h0 _ => exact ⟨n, (len_congr (seg_drop_of_ne s.mem h0.symm)).trans hlen, hpc⟩
  | waited => exact ⟨n, hlen, hlt.le⟩
  | jumped b c g _ hg hlt => exact ⟨g.len, len_some_iff.2 ⟨g, hg, rfl⟩, hlt.le⟩
  | replaced b c g _ _ hlt => exact ⟨g.len, len_some_iff.2 ⟨g, seg_setSeg_self .., rfl⟩, hlt.le⟩
  | _ => exact ⟨n, hlen, hpc⟩

/-! ### The three ways an instruction ends -/

/-- R104, R150, R210: an instruction ends in the fault entry, in Halted, or with the run state and the fault registers
kept. -/
theorem ExecEffect.end_cases {i : Instr} {s t : State} (he : ExecEffect i s t) :
    (∃ r, t = enterFault r s) ∨ t = releaseAll (advance { s with run := .halted }) ∨ KeepsStatus s t := by
  cases he with
  | fault r _ => exact .inl ⟨r, rfl⟩
  | halted => exact .inr (.inl rfl)
  | _ => exact .inr (.inr (by simp [KeepsStatus]))

/-- R28, R39: the fault entry meets the invariant, whatever the state before. -/
theorem inv_enterFault (r : Raise) (s : State) : Inv (enterFault r s) where
  memory := nil_wf
  table h := by simp at h
  counter h := by simp at h
  released _ := rfl
  noCause h := absurd rfl h
  someCause _ := code_ne_zero r.cause

/-- R28, R39: so does the end of HALT, when no cause was recorded before. -/
theorem inv_halted {s : State} (hc : s.fcause = 0#3 ∧ s.finfo = 0#32) :
    Inv (releaseAll (advance { s with run := .halted })) where
  memory := nil_wf
  table h := by simp at h
  counter h := by simp at h
  released _ := rfl
  noCause _ := hc
  someCause h := by simp at h

/-- The invariant of a Running state. -/
theorem inv_of_running {s : State} (hrun : s.run = .running) (hm : Memory.wf s.mem = true) (htable : TableInv s)
    (hpc : PcInv s) (hc : s.fcause = 0#3 ∧ s.finfo = 0#32) : Inv s where
  memory := hm
  table _ := htable
  counter _ := hpc
  released h := absurd hrun h
  noCause _ := hc
  someCause h := by simp [hrun] at h

/-- The effect of a fetched instruction keeps the invariant. -/
theorem ExecEffect.inv {i : Instr} {s t : State} {w : Word} (he : ExecEffect i s t) (hinv : Inv s) (hw : Fetches s w) :
    Inv t := by
  obtain ⟨hrun, hread⟩ := hw
  obtain ⟨g, hg, hlt, -⟩ := memRead_ok_iff.1 hread
  have hlen : Memory.len s.mem 0#32 = some g.len := len_some_iff.2 ⟨g, hg, rfl⟩
  have hnone : s.fcause = 0#3 ∧ s.finfo = 0#32 := hinv.noCause (by simp [hrun])
  obtain ⟨r, rfl⟩ | rfl | ⟨hkept, hcause, hinfo⟩ := he.end_cases
  · exact inv_enterFault r s
  · exact inv_halted hnone
  · have ht : t.run = .running := hkept.trans hrun
    have htable : TableInv s := hinv.table hrun
    exact inv_of_running ht (he.memory_wf hinv.memory) (he.tableInv hinv.memory htable ht) (he.pcInv htable hlen hlt ht)
      ⟨hcause.trans hnone.1, hinfo.trans hnone.2⟩

theorem step_keeps_inv {s t : State} (hinv : Inv s) (h : step s = .next t) : Inv t := by
  obtain ⟨-, rfl⟩ | ⟨-, r, rfl⟩ | ⟨w, hw, he⟩ := step_effect h
  · exact hinv
  · exact inv_enterFault r s
  · exact he.inv hinv hw

/-- Settles O47, by what each effect of an instruction does to the table, the memory, `pc` and the status. -/
theorem stepKeepsInvariant : Obligations.StepKeepsInvariant := by
  unfold Obligations.StepKeepsInvariant
  exact fun _ _ => step_keeps_inv

end Sys2Proof.Machine
end

section
/-! PROOFS. When a step answers a next state (spec/10_state.md R27, R31; spec/40_execution_cycle.md R100), and runs from
states with the invariant. -/

namespace Sys2Proof.Machine

open Sys2Proof.Claims

/-! ### The model's one stop -/

theorem finish_answers (r : Except Raise State) (s : State) : ∃ t, finish r s = .next t := by
  cases r <;> exact ⟨_, rfl⟩

theorem jumpInto_answers (h target : Word) (s : State) : ∃ t, jumpInto h target s = .next t := by
  simp only [jumpInto, raise]
  split
  · exact ⟨_, rfl⟩
  · split <;> exact ⟨_, rfl⟩

/-- R31: with segment 0 live, Load program finds a program in every case. -/
theorem exec_loadp_answers (b c : RegIdx) {s : State} (hl : Memory.live s.mem 0#32 = true) :
    ∃ t, exec (.loadp b c) s = .next t := by
  obtain hdead | ⟨n, hn, hle⟩ | ⟨n, hn, hlt⟩ := access_cases s.mem (s.reg b) (s.reg c)
  · have h0 : s.reg b ≠ 0#32 := fun h0 => by simp [h0, hl] at hdead
    exact ⟨_, exec_loadp_of_dead c h0 hdead⟩
  · exact ⟨_, exec_loadp_of_len_le hn hle⟩
  · rw [exec_loadp_of_lt_len hn hlt]
    exact jumpInto_answers _ _ s

/-- With segment 0 live, every instruction answers a next state: every fatal condition is one (R210). -/
theorem exec_answers (i : Instr) {s : State} (hl : Memory.live s.mem 0#32 = true) : ∃ t, exec i s = .next t := by
  cases i with
  | sload a b c | sstore a b c | map b c | unmap c => exact finish_answers _ s
  | div a b c =>
    by_cases h : s.reg c = 0#32
    · exact ⟨_, exec_div_of_eq_zero a b h⟩
    · exact ⟨_, exec_div_of_ne_zero a b h⟩
  | out c =>
    obtain h | h := Nat.lt_or_ge (s.reg c).toNat 256
    · exact ⟨_, exec_out_of_lt h⟩
    · exact ⟨_, exec_out_of_le h⟩
  | inp c =>
    cases hin : s.input with
    | cons b rest => exact ⟨_, execInp_of_byte hin c⟩
    | nil =>
      cases hend : s.inputEnd with
      | true => exact ⟨_, execInp_of_end hin hend c⟩
      | false => exact ⟨_, execInp_of_waiting hin hend c⟩
  | loadp b c => exact exec_loadp_answers b c hl
  | cmov | add | mul | nand | halt | lv | illegal14 | illegal15 => exact ⟨_, rfl⟩

/-- R100: a terminal state answers itself (log 5). -/
theorem step_terminal {s : State} (hrun : s.run ≠ .running) : step s = .next s := by
  cases h : s.run with
  | running => exact absurd h hrun
  | halted => simp [step, h]
  | faulted => simp [step, h]

/-- A Running state steps by its fetch: past the end it faults, and otherwise it runs the fetched Word. -/
theorem step_answers_of_live {s : State} (hrun : s.run = .running) (hl : Memory.live s.mem 0#32 = true) :
    ∃ t, step s = .next t := by
  cases hf : fetch s with
  | word w =>
    rw [step_of_fetches ⟨hrun, fetch_word_iff.1 hf⟩]
    exact exec_answers _ hl
  | outside => exact ⟨_, step_of_fetch_outside hrun hf⟩
  | noProgram => simp [fetch_noProgram_iff.1 hf] at hl

theorem step_of_no_program {s : State} (hrun : s.run = .running) (hdead : Memory.live s.mem 0#32 = false) :
    step s = .fault .programSegmentMissing := by
  simp [step, hrun, fetch_noProgram_iff.2 hdead]

/-- Settles O35: a terminal state answers itself, and a Running one answers as long as segment 0 is live. -/
theorem onlyMissingProgramStops : Obligations.OnlyMissingProgramStops := by
  unfold Obligations.OnlyMissingProgramStops
  intro s
  by_cases hrun : s.run = .running
  · cases hl : Memory.live s.mem 0#32 with
    | true => exact .inl (step_answers_of_live hrun hl)
    | false => exact .inr ⟨hrun, rfl, step_of_no_program hrun hl⟩
  · exact .inl ⟨s, step_terminal hrun⟩

/-! ### Runs -/

/-- Settles O26, by induction on the number of steps. -/
theorem terminalStatesNeverChange : Obligations.TerminalStatesNeverChange := by
  unfold Obligations.TerminalStatesNeverChange
  intro k s hrun
  induction k with
  | zero => exact run_zero s
  | succ k ih => rw [run_succ_of_step k (step_terminal hrun), ih]

/-- R31: the invariant has segment 0 live in a Running state, so its step answers. -/
theorem step_answers_of_inv {s : State} (hinv : Inv s) : ∃ t, step s = .next t := by
  by_cases hrun : s.run = .running
  · exact step_answers_of_live hrun (hinv.table hrun).programLive
  · exact ⟨s, step_terminal hrun⟩

/-- Settles O48, by induction on the number of steps: each answers, and keeps the invariant. -/
theorem stepAnswersFromInvariantStates : Obligations.StepAnswersFromInvariantStates := by
  unfold Obligations.StepAnswersFromInvariantStates
  intro k s hinv
  induction k generalizing s with
  | zero => exact ⟨s, run_zero s, hinv⟩
  | succ k ih =>
    obtain ⟨u, hstep⟩ := step_answers_of_inv hinv
    rw [run_succ_of_step k hstep]
    exact ih u (step_keeps_inv hinv hstep)

end Sys2Proof.Machine
end

section
/-! PROOFS. Load value (spec/48_load_value.md R190). -/

namespace Sys2Proof.Machine

open Sys2Proof.Claims

/-- R93: `EncodeLV` of a register number and a 25-bit literal fits in a Word. -/
theorem encodeLv_toNat (a : RegIdx) (imm : BitVec 25) :
    (BitVec.ofNat 32 (encodeLv a imm.toNat)).toNat = 0xD0000000 + a.val * 2 ^ 25 + imm.toNat := by
  have := imm.isLt
  simp only [encodeLv, BitVec.toNat_ofNat]
  omega

theorem exec_lv (a : RegIdx) (imm : BitVec 25) (s : State) :
    exec (.lv a imm) s = .next (advance (s.setReg a (zextImm imm))) := rfl

/-- Settles O14: LV is a write of the literal to x[A], zero-extended. -/
theorem lvWritesZeroExtendedLiteral : Obligations.LvWritesZeroExtendedLiteral := by
  unfold Obligations.LvWritesZeroExtendedLiteral
  refine ⟨fun _ => decode_of_opcode_lv, encodeLv_toNat, fun a imm s =>
    ⟨_, exec_lv a imm s, ?literal, advance_setReg_frame s a _⟩⟩
  case literal => rw [advance_reg, setReg_reg_self, zextImm_toNat]

end Sys2Proof.Machine
end

section
/-! PROOFS. The fault causes (spec/60_exceptions.md R210, R216): a faulting step is a fault entry, and for each listed cause
of an instruction a state in which it raises that cause. -/

namespace Sys2Proof.Machine

open Sys2Proof.Claims

/-- Settles O28: a step from Running reaches Faulted only through the fault entry. -/
theorem faultingStepOnlyEntersFault : Obligations.FaultingStepOnlyEntersFault := by
  unfold Obligations.FaultingStepOnlyEntersFault
  intro s t hrun hstep hend
  obtain ⟨r, rfl⟩ := step_faulted_entered hstep hrun hend
  exact ⟨r.cause.code, r.info, code_ne_zero r.cause, enterFault_faultEntered r s⟩

/-! ### The causes an instruction raises (R216) -/

/-- R216: some Running state makes the instruction end in Faulted with this code. -/
def CanRaise (i : Instr) (code : BitVec 3) : Prop :=
  ∃ s t, s.run = .running ∧ exec i s = .next t ∧ t.run = .faulted ∧ t.fcause = code

/-- A fault entry from a Running state is a raised cause. -/
theorem canRaise_of_entered {i : Instr} {code : BitVec 3} {info : Word} {s : State} (hrun : s.run = .running)
    (h : ∃ t, exec i s = .next t ∧ FaultEntered code info s t) : CanRaise i code := by
  obtain ⟨t, hexec, hfaulted, hcode, -⟩ := h
  exact ⟨s, t, hrun, hexec, hfaulted, hcode⟩

theorem canRaise_of_enterFault {i : Instr} {r : Raise} {s : State} (hrun : s.run = .running)
    (h : exec i s = .next (enterFault r s)) : CanRaise i r.cause.code :=
  ⟨s, _, hrun, h, rfl, rfl⟩

/-- R216: no other cause is raised. -/
theorem CanRaise.listed {i : Instr} {code : BitVec 3} (h : CanRaise i code) : code ∈ causesOf i := by
  obtain ⟨s, t, hrun, hexec, hfaulted, rfl⟩ := h
  cases exec_effect hexec with
  | fault r hr => exact hr
  | halted => simp at hfaulted
  | _ => simp [hrun] at hfaulted

/-! ### Witnesses: in each of these states every register choice of the instruction raises the cause -/

/-- No handle is live, and every register is 0. -/
def deadState : State := { State.reset with mem := [] }

theorem deadState_dead (h : Word) : Memory.live deadState.mem h = false := live_nil h

/-- After reset with the empty program, 0 in every register is a live handle and an offset outside its segment. -/
theorem reset_len_reg (r : RegIdx) : Memory.len State.reset.mem (State.reset.reg r) = some 0#32 := by
  rw [reset_reg]; rfl

/-- R216, R125: SLOAD raises both faults of a checked access. -/
theorem canRaise_sload (a b c : RegIdx) : CanRaise (.sload a b c) 3#3 ∧ CanRaise (.sload a b c) 4#3 where
  left := canRaise_of_entered (s := deadState) rfl (exec_sload_of_memRead_error (memRead_of_dead (deadState_dead _) _))
  right := canRaise_of_entered (s := .reset) rfl
    (exec_sload_of_memRead_error (memRead_of_len_le (reset_len_reg b) (Nat.zero_le _)))

/-- R216, R126: so does SSTORE. -/
theorem canRaise_sstore (a b c : RegIdx) : CanRaise (.sstore a b c) 3#3 ∧ CanRaise (.sstore a b c) 4#3 where
  left := canRaise_of_entered (s := deadState) rfl
    (exec_sstore_of_memWrite_error (memWrite_of_dead (deadState_dead _) _ _))
  right := canRaise_of_entered (s := .reset) rfl
    (exec_sstore_of_memWrite_error (memWrite_of_len_le (reset_len_reg a) _ (Nat.zero_le _)))

/-- R216, R137: every register is 0 after reset, the divisor too. -/
theorem canRaise_div (a b c : RegIdx) : CanRaise (.div a b c) 2#3 :=
  canRaise_of_enterFault (s := .reset) rfl (exec_div_of_eq_zero a b (reset_reg c))

/-- No handle is left to hand out. -/
def handlesSpent : State := { State.reset with nextHandle := 2 ^ 32 }

/-- R216, R155: with no handle left, a Map is refused. -/
theorem canRaise_map (b c : RegIdx) : CanRaise (.map b c) 7#3 := by
  have hrefused : mapRefused handlesSpent (handlesSpent.reg c) = true := mapRefused_of_no_handle _ rfl rfl
  exact canRaise_of_entered rfl ⟨_, execMap_of_refused hrefused, enterFault_faultEntered _ handlesSpent⟩

/-- R216, R158: an Unmap of handle 0. -/
theorem canRaise_unmap (c : RegIdx) : CanRaise (.unmap c) 3#3 :=
  canRaise_of_enterFault (s := .reset) rfl (exec_unmap_of_zero_or_dead (.inl (reset_reg c)))

/-- R216, R170: an Output of 256. -/
theorem canRaise_out (c : RegIdx) : CanRaise (.out c) 5#3 :=
  canRaise_of_enterFault (s := State.reset.setReg c 256#32) rfl
    (exec_out_of_le (by rw [setReg_reg_self]; decide))

/-- R216, R180: a Load program of the dead handle 1, and one with its target at the end of the program. -/
theorem canRaise_loadp (b c : RegIdx) : CanRaise (.loadp b c) 3#3 ∧ CanRaise (.loadp b c) 6#3 where
  left := canRaise_of_enterFault (s := deadState.setReg b 1#32) rfl
    (exec_loadp_of_dead c (by rw [setReg_reg_self]; decide) (deadState_dead _))
  right := canRaise_of_enterFault (s := .reset) rfl (exec_loadp_of_len_le (reset_len_reg b) (Nat.zero_le _))

/-- R216: every listed cause is raised. -/
theorem canRaise_of_listed {i : Instr} {code : BitVec 3} (h : code ∈ causesOf i) : CanRaise i code := by
  cases i with
  | sload a b c =>
    obtain rfl | rfl : code = 3#3 ∨ code = 4#3 := by simpa [causesOf] using h
    · exact (canRaise_sload a b c).1
    · exact (canRaise_sload a b c).2
  | sstore a b c =>
    obtain rfl | rfl : code = 3#3 ∨ code = 4#3 := by simpa [causesOf] using h
    · exact (canRaise_sstore a b c).1
    · exact (canRaise_sstore a b c).2
  | loadp b c =>
    obtain rfl | rfl : code = 3#3 ∨ code = 6#3 := by simpa [causesOf] using h
    · exact (canRaise_loadp b c).1
    · exact (canRaise_loadp b c).2
  | div a b c => exact List.mem_singleton.1 h ▸ canRaise_div a b c
  | map b c => exact List.mem_singleton.1 h ▸ canRaise_map b c
  | unmap c => exact List.mem_singleton.1 h ▸ canRaise_unmap c
  | out c => exact List.mem_singleton.1 h ▸ canRaise_out c
  | illegal14 low =>
    exact List.mem_singleton.1 h ▸ canRaise_of_entered (s := .reset) rfl (exec_illegal14_faults low _)
  | illegal15 low =>
    exact List.mem_singleton.1 h ▸ canRaise_of_entered (s := .reset) rfl (exec_illegal15_faults low _)
  | cmov | add | mul | nand | halt | inp | lv => simp [causesOf] at h

/-- Settles O29: the effects of an instruction name no cause but the listed ones, and each of those has its witness. -/
theorem instructionsRaiseOnlyListedCauses : Obligations.InstructionsRaiseOnlyListedCauses := by
  unfold Obligations.InstructionsRaiseOnlyListedCauses
  exact fun _ _ => ⟨CanRaise.listed, canRaise_of_listed⟩

end Sys2Proof.Machine
end

section
/-! PROOFS. Reset and the Loader (spec/70_reset_and_hazards.md R230 to R232; spec/10_state.md R44): which programs and images
give a run, what the Loader puts in segment 0, and the invariant of every launched machine. -/

namespace Sys2Proof.Machine

open Sys2Proof.Claims

/-! ### The Words of an image (R55, R231) -/

/-- R55: four bytes, most significant first, as a number. -/
theorem wordOfBytes_toNat (b0 b1 b2 b3 : Byte) : (wordOfBytes b0 b1 b2 b3).toNat =
    b0.toNat * 2 ^ 24 + b1.toNat * 2 ^ 16 + b2.toNat * 2 ^ 8 + b3.toNat := by
  have := b0.isLt
  have := b1.isLt
  have := b2.isLt
  have := b3.isLt
  simp only [wordOfBytes, BitVec.toNat_ofNat]
  omega

/-- R231: the bytes `4k` to `4k+3` of an image, most significant first, as a number. -/
def imageNumber (image : List Byte) (k : Nat) : Nat :=
  (image.getD (4 * k) 0#8).toNat * 2 ^ 24 + (image.getD (4 * k + 1) 0#8).toNat * 2 ^ 16 +
    (image.getD (4 * k + 2) 0#8).toNat * 2 ^ 8 + (image.getD (4 * k + 3) 0#8).toNat

theorem imageNumber_zero (b0 b1 b2 b3 : Byte) (rest : List Byte) :
    imageNumber (b0 :: b1 :: b2 :: b3 :: rest) 0 = (wordOfBytes b0 b1 b2 b3).toNat :=
  (wordOfBytes_toNat b0 b1 b2 b3).symm

/-- Past the first Word, an image is read four bytes further on. -/
theorem imageNumber_succ (b0 b1 b2 b3 : Byte) (rest : List Byte) (k : Nat) :
    imageNumber (b0 :: b1 :: b2 :: b3 :: rest) (k + 1) = imageNumber rest k := rfl

theorem imageWords_getElem {image : List Byte} {ws : List Word} (h : imageWords image = some ws) {k : Nat}
    (hk : k < ws.length) : ws[k].toNat = imageNumber image k := by
  fun_induction imageWords image generalizing ws k with
  | case1 => cases h; simp at hk
  | case2 b0 b1 b2 b3 rest ws' hrest ih =>
    cases h
    cases k with
    | zero => exact (imageNumber_zero b0 b1 b2 b3 rest).symm
    | succ k => exact ih hrest (Nat.lt_of_succ_lt_succ hk)
  | case3 => cases h
  | case4 => cases h

/-! ### The programs and images that give a run (R232; log 13) -/

theorem imageWf_iff {image : List Byte} :
    imageWf image = true ↔ image.length % 4 = 0 ∧ image.length / 4 ≤ 2 ^ 32 - 1 := by
  simp [imageWf, imageWholeWords, imageFits, Config.maxSegLen]

theorem imageWf_of_loadImage {image input : List Byte} {e : Bool} {cap : Capacity} {s : State}
    (h : loadImage image input e cap = some s) : imageWf image = true := by
  by_contra hwf
  simp [loadImage, hwf] at h

theorem launch_isSome_iff {program : List Word} {input : List Byte} {e : Bool} {cap : Capacity} :
    (∃ s, launch program input e cap = some s) ↔ program.length ≤ 2 ^ 32 - 1 :=
  ⟨fun ⟨_, h⟩ => (launch_eq_some_iff.1 h).1, fun h => ⟨_, launch_eq_some_iff.2 ⟨h, rfl⟩⟩⟩

/-- R231, R232: loading an image within the spec is a reset, which has a state because the image fits. -/
theorem launch_of_imageWf {image : List Byte} (hwf : imageWf image = true) (input : List Byte) (e : Bool)
    (cap : Capacity) : ∃ ws s, imageWords image = some ws ∧ ws.length = image.length / 4 ∧
      ws.length ≤ 2 ^ 32 - 1 ∧ loadImage image input e cap = some s ∧ launch ws input e cap = some s := by
  obtain ⟨ws, hwords, hlen, hload⟩ := loadImage_of_wf hwf input e cap
  have hfits : ws.length ≤ 2 ^ 32 - 1 := hlen ▸ (imageWf_iff.1 hwf).2
  obtain ⟨s, hlaunch⟩ := launch_isSome_iff.2 hfits
  exact ⟨ws, s, hwords, hlen, hfits, hload.trans hlaunch, hlaunch⟩

theorem loadImage_isSome_iff {image input : List Byte} {e : Bool} {cap : Capacity} :
    (∃ s, loadImage image input e cap = some s) ↔ image.length % 4 = 0 ∧ image.length / 4 ≤ 2 ^ 32 - 1 := by
  rw [← imageWf_iff]
  refine ⟨fun ⟨s, h⟩ => imageWf_of_loadImage h, fun hwf => ?_⟩
  obtain ⟨-, s, -, -, -, hload, -⟩ := launch_of_imageWf hwf input e cap
  exact ⟨s, hload⟩

/-- Settles O21: loading is the reset with the image's Words, which memory then reads back. -/
theorem loaderFillsProgramSegment : Obligations.LoaderFillsProgramSegment := by
  unfold Obligations.LoaderFillsProgramSegment
  intro image input e cap hwf
  obtain ⟨ws, s, hwords, hlen, hfits, hload, hlaunch⟩ := launch_of_imageWf hwf input e cap
  obtain ⟨-, rfl⟩ := launch_eq_some_iff.1 hlaunch
  refine ⟨_, hload, rfl, rfl, rfl, ?length, fun k hk => ?word⟩
  case length =>
    rw [← hlen]
    exact len_some_iff.2 ⟨_, seg_singleton_zero .., ofWords_len ws⟩
  case word =>
    have hk : k < ws.length := hlen ▸ hk
    exact ⟨ws[k], memRead_program hfits hk, imageWords_getElem hwords hk⟩

/-- R101, R232: the empty image loads, and its first fetch is past the end. -/
theorem empty_image_faults (input : List Byte) (e : Bool) (cap : Capacity) :
    ∃ s t, loadImage [] input e cap = some s ∧ step s = .next t ∧ FaultEntered 6#3 0#32 s t :=
  ⟨_, _, rfl, step_of_fetch_outside rfl rfl, enterFault_faultEntered _ _⟩

/-- Settles O49, by the lengths a reset and the Loader accept, and the fetch of the empty program. -/
theorem onlyWholeImagesWithinLimitRun : Obligations.OnlyWholeImagesWithinLimitRun := by
  unfold Obligations.OnlyWholeImagesWithinLimitRun
  exact fun input e cap => ⟨fun _ => launch_isSome_iff, fun _ => loadImage_isSome_iff, empty_image_faults input e cap⟩

/-! ### The invariant after reset (R35, R44) -/

section Launched

variable {program : List Word} {input : List Byte} {e : Bool} {cap : Capacity} {s : State}
  (h : launch program input e cap = some s)
include h

theorem launch_live (k : Word) : Memory.live s.mem k = true ↔ k = 0#32 := by
  obtain ⟨-, rfl⟩ := launch_eq_some_iff.1 h
  simp [Memory.live, seg_singleton_zero]

theorem launch_pool : s.free = [] ∧ s.nextHandle = 1 := by
  obtain ⟨-, rfl⟩ := launch_eq_some_iff.1 h
  exact ⟨rfl, rfl⟩

/-- R34, R35: after reset handle 0 alone is live, the pool is empty and `next` is 1. -/
theorem launch_tableInv : TableInv s := by
  have hlive := launch_live h
  obtain ⟨hfree, hnext⟩ := launch_pool h
  refine ⟨(hlive 0#32).2 rfl, fun k h1 h2 => ?out, hfree ▸ List.nodup_nil, fun k hle => ?yet, ?zero, ?pos, ?bound⟩
  case out => omega
  case yet =>
    have h0 : k ≠ 0#32 := by rintro rfl; simp [hnext] at hle
    exact ⟨Bool.eq_false_iff.2 fun hl => h0 ((hlive k).1 hl), hfree ▸ List.not_mem_nil⟩
  case zero => exact hfree ▸ List.not_mem_nil
  case pos => omega
  case bound => omega

/-- R44: after reset `pc` is at the start of segment 0. -/
theorem launch_pcInv : PcInv s := by
  obtain ⟨-, rfl⟩ := launch_eq_some_iff.1 h
  exact ⟨_, len_some_iff.2 ⟨_, seg_singleton_zero .., rfl⟩, Nat.zero_le _⟩

theorem launch_status : s.run = .running ∧ s.fcause = 0#3 ∧ s.finfo = 0#32 := by
  obtain ⟨-, rfl⟩ := launch_eq_some_iff.1 h
  exact ⟨rfl, rfl, rfl⟩

theorem inv_launch : Inv s := by
  obtain ⟨hrun, hnone⟩ := launch_status h
  exact inv_of_running hrun (launch_wf h) (launch_tableInv h) (launch_pcInv h) hnone

end Launched

/-- `State.reset` is the reset with the model's own PROGRAM, INPUT and capacity (log 1, log 2, log 3). -/
theorem launch_reset : launch [] [] true .handlesOnly = some State.reset := rfl

/-- Settles O46, by the parts of the invariant that a launched machine meets. -/
theorem launchMeetsInvariant : Obligations.LaunchMeetsInvariant := by
  unfold Obligations.LaunchMeetsInvariant
  exact ⟨fun _ _ _ _ _ => inv_launch, launch_reset, inv_launch launch_reset⟩

end Sys2Proof.Machine
end

section
/-! PROOFS. Words and their canonical form (spec/30_encoding.md sections 1, 3, 4 and 6): the bits that re-encoding keeps,
Words written out, and the assembler's LV line. -/

namespace Sys2Proof.Machine

open Sys2Proof.Claims

/-! ### The operand fields as the low bits of a Word (R83) -/

theorem low_three_bits (w : Word) : (rC w).val = w.toNat % 2 ^ 3 := rfl

theorem low_six_bits (w : Word) : (rB w).val * 8 + (rC w).val = w.toNat % 2 ^ 6 := by
  simp only [rB, rC]
  omega

theorem low_nine_bits (w : Word) : (rA w).val * 64 + (rB w).val * 8 + (rC w).val = w.toNat % 2 ^ 9 := by
  simp only [rA, rB, rC]
  omega

/-! ### Re-encoding (R89, R90, R93) -/

theorem encode3_rA_rB_rC (w : Word) :
    (BitVec.ofNat 32 (encode3 (opcode w) (rA w) (rB w) (rC w))).toNat = opcode w * 2 ^ 28 + w.toNat % 2 ^ 9 := by
  rw [encode3_toNat (opcode_lt w), Nat.add_assoc, Nat.add_assoc, ← Nat.add_assoc (_ * 64), low_nine_bits]

theorem encode3_rB_rC (w : Word) :
    (BitVec.ofNat 32 (encode3 (opcode w) 0 (rB w) (rC w))).toNat = opcode w * 2 ^ 28 + w.toNat % 2 ^ 6 := by
  have h := encode3_toNat (opcode_lt w) 0 (rB w) (rC w)
  rw [← low_six_bits]
  simpa [Nat.add_assoc] using h

theorem encode3_rC (w : Word) :
    (BitVec.ofNat 32 (encode3 (opcode w) 0 0 (rC w))).toNat = opcode w * 2 ^ 28 + w.toNat % 2 ^ 3 := by
  have h := encode3_toNat (opcode_lt w) 0 0 (rC w)
  rw [← low_three_bits]
  simpa using h

theorem encode_decode_of_reads_A_B_C {w : Word} (h : opcode w ≤ 6) :
    (encode (decode w)).toNat = opcode w * 2 ^ 28 + w.toNat % 2 ^ 9 := by
  rw [← encode3_rA_rB_rC]
  obtain h | h | h | h | h | h | h : opcode w = 0 ∨ opcode w = 1 ∨ opcode w = 2 ∨ opcode w = 3 ∨ opcode w = 4 ∨
    opcode w = 5 ∨ opcode w = 6 := by omega
  · rw [decode_of_opcode_cmov h, encode, h]
  · rw [decode_of_opcode_sload h, encode, h]
  · rw [decode_of_opcode_sstore h, encode, h]
  · rw [decode_of_opcode_add h, encode, h]
  · rw [decode_of_opcode_mul h, encode, h]
  · rw [decode_of_opcode_div h, encode, h]
  · rw [decode_of_opcode_nand h, encode, h]

theorem encode_decode_of_reads_none {w : Word} (h : opcode w = 7) : (encode (decode w)).toNat = opcode w * 2 ^ 28 := by
  rw [decode_of_opcode_halt h, h]
  decide

theorem encode_decode_of_reads_B_C {w : Word} (h : opcode w = 8 ∨ opcode w = 12) :
    (encode (decode w)).toNat = opcode w * 2 ^ 28 + w.toNat % 2 ^ 6 := by
  rw [← encode3_rB_rC]
  obtain h | h := h
  · rw [decode_of_opcode_map h, encode, h]
  · rw [decode_of_opcode_loadp h, encode, h]

theorem encode_decode_of_reads_C {w : Word} (h : opcode w = 9 ∨ opcode w = 10 ∨ opcode w = 11) :
    (encode (decode w)).toNat = opcode w * 2 ^ 28 + w.toNat % 2 ^ 3 := by
  rw [← encode3_rC]
  obtain h | h | h := h
  · rw [decode_of_opcode_unmap h, encode, h]
  · rw [decode_of_opcode_out h, encode, h]
  · rw [decode_of_opcode_inp h, encode, h]

/-- R84: the immediate-load format reads every bit of its Word. -/
theorem encodeLv_rLv_literal {w : Word} (h : opcode w = 13) :
    BitVec.ofNat 32 (encodeLv (rLv w) (literal w).toNat) = w := by
  apply BitVec.eq_of_toNat_eq
  simp only [opcode] at h
  simp only [encodeLv, rLv, literal, BitVec.toNat_ofNat]
  omega

/-- R84, R88: opcodes 13 to 15 keep every bit of their Word. -/
theorem encode_decode_of_reads_all {w : Word} (h : 13 ≤ opcode w) : encode (decode w) = w := by
  have hw := ofNat_opcode_fieldLow w
  obtain h | h | h : opcode w = 13 ∨ opcode w = 14 ∨ opcode w = 15 := by have := opcode_lt w; omega
  · rw [decode_of_opcode_lv h, encode, encodeLv_rLv_literal h]
  · rwa [decode_of_opcode_illegal14 h, encode, ← h]
  · rwa [decode_of_opcode_illegal15 h, encode, ← h]

/-- Settles O17, by the rows with the same fields. -/
theorem reencodingClearsOnlyUnreadBits : Obligations.ReencodingClearsOnlyUnreadBits := by
  unfold Obligations.ReencodingClearsOnlyUnreadBits
  exact fun w => ⟨encode_decode_of_reads_A_B_C, encode_decode_of_reads_none, encode_decode_of_reads_B_C,
    encode_decode_of_reads_C, encode_decode_of_reads_all⟩

/-! ### Words written out -/

/-- Settles O22, by evaluating the decoder on each Word. -/
theorem writtenOutWordsDecode : Obligations.WrittenOutWordsDecode := by
  unfold Obligations.WrittenOutWordsDecode
  decide

/-! ### The assembler's LV line (R93) -/

theorem lvLine_wf_iff {a imm : Nat} : (Line.lv a imm).wf = true ↔ a < 8 ∧ imm < 2 ^ 25 := by
  simp [Line.wf, registerNumberOk, literalOk]

/-- R93: an accepted LV line is the Word of the LV with that register and that literal. -/
theorem assembleLine_lv {a imm : Nat} (ha : a < 8) (himm : imm < 2 ^ 25) :
    assembleLine (.lv a imm) = some (encode (.lv ⟨a, ha⟩ (BitVec.ofNatLT imm himm))) := by
  simp [assembleLine, lvLine_wf_iff.2 ⟨ha, himm⟩, encode]

theorem assembleLine_lv_isSome_iff {a imm : Nat} :
    (assembleLine (.lv a imm)).isSome = true ↔ a < 8 ∧ imm < 2 ^ 25 := by
  rw [← lvLine_wf_iff]
  by_cases h : (Line.lv a imm).wf = true
  · simp [assembleLine, h]
  · simp [assembleLine, h]

/-- Settles O23: the line is accepted when it is well formed, and its Word is the canonical one, which decodes back. -/
theorem assemblerRefusesWideLiterals : Obligations.AssemblerRefusesWideLiterals := by
  unfold Obligations.AssemblerRefusesWideLiterals
  refine fun a imm => ⟨assembleLine_lv_isSome_iff, fun w hw => ?_⟩
  obtain ⟨ha, himm⟩ := assembleLine_lv_isSome_iff.1 (Option.isSome_of_eq_some hw)
  rw [assembleLine_lv ha himm, Option.some.injEq] at hw
  subst hw
  exact ⟨⟨a, ha⟩, BitVec.ofNatLT imm himm, rfl, rfl, decode_encode _⟩

end Sys2Proof.Machine
end

section
/-! PROOFS. A waiting Input (spec/10_state.md R41; spec/46_output_input.md R172): what the environment presents completes
it. -/

namespace Sys2Proof.Machine

open Sys2Proof.Claims

/-- R41: the first byte presented to an empty port is the one IN takes. -/
theorem presentByte_of_waiting {s : State} (b : Byte) (hin : s.input = []) (hend : s.inputEnd = false) :
    presentByte b s = { s with input := [b] } := by
  simp [presentByte, hin, hend]

/-- Settles O34: IN of the port as it is, with the byte at its head, and with `end` presented. -/
theorem waitingInputCompletesWhenPresented : Obligations.WaitingInputCompletesWhenPresented := by
  unfold Obligations.WaitingInputCompletesWhenPresented
  intro c s b hin hend
  rw [presentByte_of_waiting b hin hend]
  refine ⟨execInp_of_waiting hin hend c,
    ⟨_, execInp_of_byte (s := { s with input := [b] }) rfl c, ?byte, rfl, advanced_of_pc rfl⟩,
    ⟨_, execInp_of_end (s := presentEnd s) hin rfl c, ?sentinel, advanced_of_pc rfl⟩⟩
  case byte => rw [advance_reg, setReg_reg_self, zextByte_toNat]
  case sentinel => rw [advance_reg, setReg_reg_self, allOnes_toNat]

end Sys2Proof.Machine
end

section
/-! PROOFS. Canonical memory as data (spec/20_memory.md sections 1 and 2; log 6), and the Word that the next step fetches
after a store (R64) and after the host's placing (spec/70_reset_and_hazards.md R231; log 11). -/

namespace Sys2Proof.Machine

open Sys2Proof.Claims

/-! ### Extensionality -/

/-- A canonical list of cells holds, at every offset, what the segment's Words are: an unlisted offset reads 0, and no
listed one does. -/
theorem assocGet_cells {g : Segment} (hg : g.wf = true) (o : Word) :
    assocGet o.toNat g.cells = if g.word o = 0#32 then none else some (g.word o) := by
  cases h : assocGet o.toNat g.cells with
  | none => simp [Segment.word, h]
  | some v =>
    have hv : v ≠ 0#32 := ((segment_wf_iff.1 hg).2 _ (assocGet_mem h)).2
    simp [Segment.word, h, hv]

theorem assocGet_cells_of_len_le {g : Segment} (hg : g.wf = true) {k : Nat} (hk : g.len.toNat ≤ k) :
    assocGet k g.cells = none := by
  cases h : assocGet k g.cells with
  | none => rfl
  | some v =>
    have hlt : k < g.len.toNat := ((segment_wf_iff.1 hg).2 _ (assocGet_mem h)).1
    omega

/-- Canonical segments of one length that hold the same Words below it are the same data. -/
theorem segment_ext {g g' : Segment} (hg : g.wf = true) (hg' : g'.wf = true) (hlen : g.len = g'.len)
    (hword : ∀ o : Word, o.toNat < g.len.toNat → g.word o = g'.word o) : g = g' := by
  have hcells : g.cells = g'.cells := by
    refine assoc_ext (segment_wf_iff.1 hg).1 (segment_wf_iff.1 hg').1 fun k => ?_
    obtain hk | hk := Nat.lt_or_ge k g.len.toNat
    · have hk' : (BitVec.ofNat 32 k).toNat = k := Nat.mod_eq_of_lt (hk.trans g.len.isLt)
      rw [← hk', assocGet_cells hg, assocGet_cells hg', hword _ (hk'.symm ▸ hk)]
    · rw [assocGet_cells_of_len_le hg hk, assocGet_cells_of_len_le hg' (hlen ▸ hk)]
  calc g = ⟨g.len, g.cells⟩ := rfl
    _ = ⟨g'.len, g'.cells⟩ := by rw [hlen, hcells]
    _ = g' := rfl

theorem assocGet_memory_of_le {m : Memory} (hm : Memory.wf m = true) {k : Nat} (hk : 2 ^ 32 ≤ k) :
    assocGet k m = none := by
  cases h : assocGet k m with
  | none => rfl
  | some g =>
    have hlt : k < 2 ^ 32 := ((memory_wf_iff.1 hm).2 _ (assocGet_mem h)).1
    omega

/-- Canonical memories that hold the same segment under every handle are the same data. -/
theorem memory_ext {m m' : Memory} (hm : Memory.wf m = true) (hm' : Memory.wf m' = true)
    (hseg : ∀ h : Word, Memory.seg m h = Memory.seg m' h) : m = m' := by
  refine assoc_ext (memory_wf_iff.1 hm).1 (memory_wf_iff.1 hm').1 fun k => ?_
  obtain hk | hk := Nat.lt_or_ge k (2 ^ 32)
  · have hk' : (BitVec.ofNat 32 k).toNat = k := Nat.mod_eq_of_lt hk
    rw [← hk']
    exact hseg (BitVec.ofNat 32 k)
  · rw [assocGet_memory_of_le hm hk, assocGet_memory_of_le hm' hk]

/-- Where two canonical memories agree on a length and on the reads under a handle, they hold the same segment there. -/
theorem seg_eq_of_reads {m m' : Memory} (hm : Memory.wf m = true) (hm' : Memory.wf m' = true) {h : Word}
    (hlen : Memory.len m h = Memory.len m' h) (hread : ∀ o : Word, memRead m h o = memRead m' h o) :
    Memory.seg m h = Memory.seg m' h := by
  cases hg : Memory.seg m h with
  | none => simpa [Memory.len, hg, eq_comm] using hlen
  | some g =>
    obtain ⟨g', hg', hlen'⟩ := len_some_iff.1 (hlen.symm.trans (len_some_iff.2 ⟨g, hg, rfl⟩))
    rw [hg', segment_ext (seg_wf hm hg) (seg_wf hm' hg') hlen'.symm fun o ho => ?_]
    obtain ⟨_, hsome, -, hword⟩ := memRead_ok_iff.1 ((hread o).symm.trans (memRead_ok_iff.2 ⟨g, hg, ho, rfl⟩))
    rw [← hword, Option.some.inj (hg'.symm.trans hsome)]

/-- Settles O40: the same segment under every handle, and so the same list. -/
theorem canonicalMemoryIsExtensional : Obligations.CanonicalMemoryIsExtensional := by
  unfold Obligations.CanonicalMemoryIsExtensional
  exact fun m m' hm hm' hlen hread => memory_ext hm hm' fun h => seg_eq_of_reads hm hm' (hlen h) (hread h)

/-! ### A store into the next Word (R64) -/

/-- Settles O44: the store puts x[C] where the advanced `pc` points, and the next step fetches it there. -/
theorem storedInstructionRunsNext : Obligations.StoredInstructionRunsNext := by
  unfold Obligations.StoredInstructionRunsNext
  intro s w a b c n hm hw hdecode ha hn hnext hlt
  obtain ⟨m, hwrite⟩ := memWrite_ok_of_lt_len hn (s.reg c) hlt
  have hpc : (advance { s with mem := m }).pc = s.reg b := by
    have hfits : s.pc.toNat + 1 < 2 ^ 32 := by have := n.isLt; omega
    exact BitVec.eq_of_toNat_eq ((advance_pc_toNat (s := { s with mem := m }) hfits).trans hnext.symm)
  have hfetches : Fetches (advance { s with mem := m }) (s.reg c) :=
    ⟨hw.1, hpc ▸ memRead_memWrite_self hwrite hm⟩
  refine ⟨advance { s with mem := m }, ?_, step_of_fetches hfetches⟩
  rw [step_of_fetches hw, hdecode]
  exact exec_sstore_of_memWrite_ok (ha.symm ▸ hwrite)

/-! ### A Word placed by the host (R231; log 11) -/

/-- The offset at which the host places a Word. -/
def placePc (s : State) : Word := if s.pc = allOnes then 0#32 else s.pc

/-- Segment 0 before the placing, empty where it is not live. -/
def placeSegment (s : State) : Segment := (Memory.seg s.mem 0#32).getD (Segment.zeroed 0#32)

/-- Segment 0 made long enough for the fetch. -/
def placeGrown (s : State) : Segment :=
  if (placeSegment s).len.toNat ≤ (placePc s).toNat then
    { placeSegment s with len := BitVec.ofNat 32 ((placePc s).toNat + 1) }
  else placeSegment s

theorem withFetchWord_eq (s : State) (nbits w : Nat) : s.withFetchWord nbits w =
    { s with
      mem := Memory.setSeg s.mem 0#32 ((placeGrown s).setWord (placePc s) (tableWord nbits w))
      pc := placePc s, run := .running, fcause := 0#3, finfo := 0#32 } := rfl

/-- No Word is placed at 2^32 − 1, where no segment can hold one. -/
theorem placePc_lt (s : State) : (placePc s).toNat + 1 < 2 ^ 32 := by
  have hlt := (placePc s).isLt
  have hne : (placePc s).toNat ≠ 2 ^ 32 - 1 := fun h => by
    have hall : placePc s = allOnes := BitVec.eq_of_toNat_eq (h.trans allOnes_toNat.symm)
    simp only [placePc] at hall
    split at hall
    · exact absurd hall (by decide)
    · exact absurd hall ‹_›
  omega

theorem placeSegment_wf {s : State} (hm : Memory.wf s.mem = true) : (placeSegment s).wf = true := by
  cases hg : Memory.seg s.mem 0#32 with
  | none => simp [placeSegment, hg, zeroed_wf]
  | some g => simpa [placeSegment, hg] using seg_wf hm hg

/-- A longer segment with the same cells is canonical too. -/
theorem segment_wf_of_len_le {g : Segment} (hg : g.wf = true) {n : Word} (hle : g.len.toNat ≤ n.toNat) :
    Segment.wf { g with len := n } = true := by
  obtain ⟨hrising, hcells⟩ := segment_wf_iff.1 hg
  exact segment_wf_iff.2 ⟨hrising, fun c hc => ⟨(hcells c hc).1.trans_le hle, (hcells c hc).2⟩⟩

theorem placeGrown_spec {s : State} (hm : Memory.wf s.mem = true) :
    (placeGrown s).wf = true ∧ (placePc s).toNat < (placeGrown s).len.toNat := by
  have hlen : (BitVec.ofNat 32 ((placePc s).toNat + 1)).toNat = (placePc s).toNat + 1 :=
    Nat.mod_eq_of_lt (placePc_lt s)
  simp only [placeGrown]
  split
  · next hle => exact ⟨segment_wf_of_len_le (placeSegment_wf hm) (by omega), by simp only [hlen]; omega⟩
  · next hlt => exact ⟨placeSegment_wf hm, Nat.lt_of_not_le hlt⟩

/-- A Word is its own 32 bits. -/
theorem tableWord_toNat (w : Word) : tableWord 32 w.toNat = w := by
  apply BitVec.eq_of_toNat_eq
  have := w.isLt
  simp only [tableWord, BitVec.toNat_ofNat]
  omega

/-- The placed Word is the one the next step fetches. -/
theorem fetches_withFetchWord {s : State} (hm : Memory.wf s.mem = true) (w : Word) :
    Fetches (s.withFetchWord 32 w.toNat) w := by
  obtain ⟨hwf, hlt⟩ := placeGrown_spec hm
  rw [withFetchWord_eq, tableWord_toNat]
  exact ⟨rfl, memRead_ok_iff.2 ⟨_, seg_setSeg_self .., hlt, setWord_word_self hwf _ w⟩⟩

/-- Settles O36: the next step fetches the placed Word, and runs what it decodes to. -/
theorem placedWordRunsNext : Obligations.PlacedWordRunsNext := by
  unfold Obligations.PlacedWordRunsNext
  exact fun s w hm => step_of_fetches (fetches_withFetchWord hm w)

end Sys2Proof.Machine
end
